-- ==== Sys2Proof/Word.lean ====
section
/-! DEFINITION. The command word and the byte (spec/00_scope.md R6 `WORD_BITS`, R10). -/

namespace Sys2Proof

/-- A command word: 64 bits, bit 0 the least significant (R10). -/
abbrev Word := BitVec 64

/-- One byte of system memory or of tmem (R37, R71). -/
abbrev Byte := BitVec 8

end Sys2Proof
end

