-- ==== Sys2Proof/Machine/Layout.lean ====
section
/-! DEFINITION. The bit-field decoder (spec/40_assembler_dispatch.md R140, R141) and `FIELD_LAYOUT`, the bit
position of every field, held as data (spec/30_encoding.md R110 to R122). Every position but the opcode's is PRESUMED
(the spec's own item G2, decision D2), log 11. -/

namespace Sys2Proof.Machine

/-- `ufield(w, hi, lo) = (w >> lo) mod 2^(hi-lo+1)` (R10, R140). -/
def ufield (w : Word) (hi lo : Nat) : Nat := (w.toNat >>> lo) % 2 ^ (hi - lo + 1)

/-- `sfield(w, hi, lo)`: the two's-complement reading of the same bits (R11, R141). -/
def sfield (w : Word) (hi lo : Nat) : Int :=
  if w.getLsbD hi then (ufield w hi lo : Int) - 2 ^ (hi - lo + 1) else ufield w hi lo

/-- Where a field of `n` bits stands in a command word: bits `lo + n - 1` down to `lo`. -/
structure BitField (n : Nat) where
  lo : Nat
deriving DecidableEq, Repr

/-- The field at bits `hi:lo`, inclusive at both ends, as the spec writes it. -/
def bits (hi lo : Nat) : BitField (hi - lo + 1) := ⟨lo⟩

/-- The bits of a field, read with `ufield` (R140). -/
def take {n : Nat} (w : Word) (f : BitField n) : BitVec n := BitVec.ofNat n (ufield w (f.lo + n - 1) f.lo)

/-- A field's value at the field's place in a word, every other bit 0 (R131). -/
def place {n : Nat} (v : BitVec n) (f : BitField n) : Word := v.setWidth 64 <<< f.lo

namespace Layout

/-- The opcode, bits 61:56 of the first word (R110). -/
def op : BitField 6 := bits 61 56

/-- The high corner pair: Set Scissor (x0, y0), Load Tile (s0, t0), Texture and Fill Rectangle (x1, y1)
(R112, R120, R121, R122). -/
def hiX : BitField 12 := bits 55 44
def hiY : BitField 12 := bits 43 32

/-- The low corner pair: Set Scissor (x1, y1), Load Tile (s1, t1), Texture and Fill Rectangle (x0, y0). -/
def loX : BitField 12 := bits 23 12
def loY : BitField 12 := bits 11 0

/-- The tile index of Load Tile, Texture Rectangle and Set Tile (R117, R120, R121). -/
def tile : BitField 3 := bits 26 24

/-- The format and size codes of the image commands and Set Tile (R113, R117). -/
def fmt  : BitField 3 := bits 55 53
def size : BitField 2 := bits 52 51

/-- The image commands' width and address (R113). -/
def width : BitField 10 := bits 41 32
def addr  : BitField 26 := bits 25 0

/-- Set Other Modes' cycle-mode field (R115). -/
def cycle : BitField 2 := bits 53 52

/-- Set Tile's own fields (R117). -/
def line    : BitField 9 := bits 49 41
def tmem    : BitField 9 := bits 40 32
def palette : BitField 4 := bits 23 20
def clampT  : BitField 1 := bits 19 19
def mirrorT : BitField 1 := bits 18 18
def maskT   : BitField 4 := bits 17 14
def shiftT  : BitField 4 := bits 13 10
def clampS  : BitField 1 := bits 9 9
def mirrorS : BitField 1 := bits 8 8
def maskS   : BitField 4 := bits 7 4
def shiftS  : BitField 4 := bits 3 0

/-- Set Blend Color's channels (R118) and Set Fill Color's value (R119). -/
def r : BitField 8 := bits 31 24
def g : BitField 8 := bits 23 16
def b : BitField 8 := bits 15 8
def a : BitField 8 := bits 7 0
def color : BitField 32 := bits 31 0

/-- The second word of Texture Rectangle (R121). -/
def s    : BitField 16 := bits 63 48
def t    : BitField 16 := bits 47 32
def dsdx : BitField 16 := bits 31 16
def dtdy : BitField 16 := bits 15 0

end Layout

/-- The opcode of a command's first word (R110). -/
def opcodeOf (w : Word) : BitVec 6 := take w Layout.op

/-- `words(op)`: 2 for Texture Rectangle, 1 for every other opcode, known or unknown (R129, R144). -/
def words (op : BitVec 6) : Nat := if op = 0x24#6 then 2 else 1

end Sys2Proof.Machine
end

