-- ==== Sys2Proof/Syntax.lean ====
section
/-! DEFINITION. The twelve commands, one constructor per row of spec/opcode_table.json, in the table's order.
Operands are the raw field values `*_f` of spec/30_encoding.md R112 to R122; what they mean is Machine/Operands.lean. -/

namespace Sys2Proof

inductive Instr where
  /-- TEXTURE_RECTANGLE, opcode 0x24, two words (R121). -/
  | textureRectangle (x1 y1 : BitVec 12) (tile : BitVec 3) (x0 y0 : BitVec 12) (s t dsdx dtdy : BitVec 16)
  /-- SYNC_TILE, opcode 0x28 (R114). -/
  | syncTile
  /-- SET_SCISSOR, opcode 0x2D (R112). -/
  | setScissor (x0 y0 x1 y1 : BitVec 12)
  /-- SET_OTHER_MODES, opcode 0x2F (R115): the decoded field and the whole raw word, which is forwarded. -/
  | setOtherModes (cycle : BitVec 2) (raw : Word)
  /-- LOAD_TILE, opcode 0x34 (R120). -/
  | loadTile (s0 t0 : BitVec 12) (tile : BitVec 3) (s1 t1 : BitVec 12)
  /-- SET_TILE, opcode 0x35 (R117). -/
  | setTile (fmt : BitVec 3) (size : BitVec 2) (line tmem : BitVec 9) (tile : BitVec 3) (palette : BitVec 4)
      (clampT mirrorT : BitVec 1) (maskT shiftT : BitVec 4) (clampS mirrorS : BitVec 1) (maskS shiftS : BitVec 4)
  /-- FILL_RECTANGLE, opcode 0x36 (R122). -/
  | fillRectangle (x1 y1 x0 y0 : BitVec 12)
  /-- SET_FILL_COLOR, opcode 0x37 (R119). -/
  | setFillColor (color : BitVec 32)
  /-- SET_BLEND_COLOR, opcode 0x39 (R118); the fields are named as the table names them, bits 31:24 first. -/
  | setBlendColor (r g b a : BitVec 8)
  /-- SET_COMBINE_MODE, opcode 0x3C (R116): the whole raw word. -/
  | setCombineMode (raw : Word)
  /-- SET_TEXTURE_IMAGE, opcode 0x3D (R113). -/
  | setTextureImage (fmt : BitVec 3) (size : BitVec 2) (width : BitVec 10) (addr : BitVec 26)
  /-- SET_COLOR_IMAGE, opcode 0x3F (R113). -/
  | setColorImage (fmt : BitVec 3) (size : BitVec 2) (width : BitVec 10) (addr : BitVec 26)
deriving DecidableEq, Repr

end Sys2Proof
end

