-- ==== Sys2Proof/WellFormed.lean ====
section
/-! DEFINITION. Which instruction terms stand for a command word: the operand types carry the field widths, so the
only checks are those of the two commands that carry their whole raw word (spec/30_encoding.md R115, R116). -/

namespace Sys2Proof

open Machine in
/-- The raw word an instruction carries has the instruction's opcode (R110), and the field decoded from it is the
field it holds (R115). -/
def Instr.wellFormed : Instr → Bool
  | .setOtherModes cycle raw => opcodeOf raw == 0x2F#6 && take raw Layout.cycle == cycle
  | .setCombineMode raw => opcodeOf raw == 0x3C#6
  | .textureRectangle .. => true
  | .syncTile => true
  | .setScissor .. => true
  | .loadTile .. => true
  | .setTile .. => true
  | .fillRectangle .. => true
  | .setFillColor _ => true
  | .setBlendColor .. => true
  | .setTextureImage .. => true
  | .setColorImage .. => true

end Sys2Proof
end

