-- ==== Sys2Proof/Decode.lean ====
section
/-! DEFINITION. The instruction decoder, total on any words and rejecting by name, and after it the encoder
(spec/30_encoding.md R110 to R122, R126, R128, R131). The hardware's command words are values with no byte order
(spec/20_memory.md R75(a), R79), so the decoder reads words (log 18). -/

namespace Sys2Proof

open Machine

/-- Why a list of words is no command. -/
inductive DecodeReject where
  /-- None of the twelve opcodes (R126, R128(a)); `submit` gives it its effect (R147). -/
  | unknownOpcode (op : BitVec 6)
  /-- A Texture Rectangle whose second word has not arrived (R111, R145). -/
  | secondWordMissing
  /-- No word at all. -/
  | noWord
deriving DecidableEq, Repr

/-- Set Texture Image and Set Color Image have "the same decode" (R113). -/
def decodeImage (k : BitVec 3 → BitVec 2 → BitVec 10 → BitVec 26 → Instr) (w : Word) : Instr :=
  k (take w Layout.fmt) (take w Layout.size) (take w Layout.width) (take w Layout.addr)

/-- Texture Rectangle, format W2 (R121). -/
def decodeTextureRectangle (w0 w1 : Word) : Instr :=
  .textureRectangle (take w0 Layout.hiX) (take w0 Layout.hiY) (take w0 Layout.tile) (take w0 Layout.loX)
    (take w0 Layout.loY) (take w1 Layout.s) (take w1 Layout.t) (take w1 Layout.dsdx) (take w1 Layout.dtdy)

/-- Set Tile (R117). -/
def decodeSetTile (w : Word) : Instr :=
  .setTile (take w Layout.fmt) (take w Layout.size) (take w Layout.line) (take w Layout.tmem) (take w Layout.tile)
    (take w Layout.palette) (take w Layout.clampT) (take w Layout.mirrorT) (take w Layout.maskT)
    (take w Layout.shiftT) (take w Layout.clampS) (take w Layout.mirrorS) (take w Layout.maskS)
    (take w Layout.shiftS)

/-- The opcode map (R126): the command of the full buffered word set. `w1` is read for Texture Rectangle only
(R146). -/
def decodeWords (w0 w1 : Word) : Except DecodeReject Instr :=
  match (opcodeOf w0).toNat with
  | 0x24 => .ok (decodeTextureRectangle w0 w1)
  | 0x28 => .ok .syncTile
  | 0x2D => .ok (.setScissor (take w0 Layout.hiX) (take w0 Layout.hiY) (take w0 Layout.loX) (take w0 Layout.loY))
  | 0x2F => .ok (.setOtherModes (take w0 Layout.cycle) w0)
  | 0x34 => .ok (.loadTile (take w0 Layout.hiX) (take w0 Layout.hiY) (take w0 Layout.tile) (take w0 Layout.loX)
      (take w0 Layout.loY))
  | 0x35 => .ok (decodeSetTile w0)
  | 0x36 => .ok (.fillRectangle (take w0 Layout.hiX) (take w0 Layout.hiY) (take w0 Layout.loX) (take w0 Layout.loY))
  | 0x37 => .ok (.setFillColor (take w0 Layout.color))
  | 0x39 => .ok (.setBlendColor (take w0 Layout.r) (take w0 Layout.g) (take w0 Layout.b) (take w0 Layout.a))
  | 0x3C => .ok (.setCombineMode w0)
  | 0x3D => .ok (decodeImage .setTextureImage w0)
  | 0x3F => .ok (decodeImage .setColorImage w0)
  | _ => .error (.unknownOpcode (opcodeOf w0))

/-- The command at the head of a list of words, first word first (R111). -/
def decode : List Word → Except DecodeReject Instr
  | [] => .error .noWord
  | [w0] => if words (opcodeOf w0) = 2 then .error .secondWordMissing else decodeWords w0 0
  | w0 :: w1 :: _ => decodeWords w0 w1

/-- The opcode of each command (R126). -/
def Instr.opcode : Instr → BitVec 6
  | .textureRectangle .. => 0x24#6
  | .syncTile => 0x28#6
  | .setScissor .. => 0x2D#6
  | .setOtherModes .. => 0x2F#6
  | .loadTile .. => 0x34#6
  | .setTile .. => 0x35#6
  | .fillRectangle .. => 0x36#6
  | .setFillColor _ => 0x37#6
  | .setBlendColor .. => 0x39#6
  | .setCombineMode _ => 0x3C#6
  | .setTextureImage .. => 0x3D#6
  | .setColorImage .. => 0x3F#6

/-- The image commands' word (R113). -/
def encodeImage (op : BitVec 6) (fmt : BitVec 3) (size : BitVec 2) (width : BitVec 10) (addr : BitVec 26) : Word :=
  place op Layout.op ||| place fmt Layout.fmt ||| place size Layout.size ||| place width Layout.width |||
    place addr Layout.addr

/-- A command's words: the bitwise OR of the opcode and of every field at its place (R131), ignored bits 0 (R130,
log 20); the raw word where the command carries it. -/
def encode : Instr → List Word
  | .textureRectangle x1 y1 tile x0 y0 s t dsdx dtdy =>
      [place 0x24#6 Layout.op ||| place x1 Layout.hiX ||| place y1 Layout.hiY ||| place tile Layout.tile |||
        place x0 Layout.loX ||| place y0 Layout.loY,
       place s Layout.s ||| place t Layout.t ||| place dsdx Layout.dsdx ||| place dtdy Layout.dtdy]
  | .syncTile => [place 0x28#6 Layout.op]
  | .setScissor x0 y0 x1 y1 =>
      [place 0x2D#6 Layout.op ||| place x0 Layout.hiX ||| place y0 Layout.hiY ||| place x1 Layout.loX |||
        place y1 Layout.loY]
  | .setOtherModes _ raw => [raw]
  | .loadTile s0 t0 tile s1 t1 =>
      [place 0x34#6 Layout.op ||| place s0 Layout.hiX ||| place t0 Layout.hiY ||| place tile Layout.tile |||
        place s1 Layout.loX ||| place t1 Layout.loY]
  | .setTile fmt size line tmem tile palette clampT mirrorT maskT shiftT clampS mirrorS maskS shiftS =>
      [place 0x35#6 Layout.op ||| place fmt Layout.fmt ||| place size Layout.size ||| place line Layout.line |||
        place tmem Layout.tmem ||| place tile Layout.tile ||| place palette Layout.palette |||
        place clampT Layout.clampT ||| place mirrorT Layout.mirrorT ||| place maskT Layout.maskT |||
        place shiftT Layout.shiftT ||| place clampS Layout.clampS ||| place mirrorS Layout.mirrorS |||
        place maskS Layout.maskS ||| place shiftS Layout.shiftS]
  | .fillRectangle x1 y1 x0 y0 =>
      [place 0x36#6 Layout.op ||| place x1 Layout.hiX ||| place y1 Layout.hiY ||| place x0 Layout.loX |||
        place y0 Layout.loY]
  | .setFillColor color => [place 0x37#6 Layout.op ||| place color Layout.color]
  | .setBlendColor r g b a =>
      [place 0x39#6 Layout.op ||| place r Layout.r ||| place g Layout.g ||| place b Layout.b ||| place a Layout.a]
  | .setCombineMode raw => [raw]
  | .setTextureImage fmt size width addr => [encodeImage 0x3D#6 fmt size width addr]
  | .setColorImage fmt size width addr => [encodeImage 0x3F#6 fmt size width addr]

/-- The words of an instruction given as one number, bit 0 the least significant bit of the first word; a two-word
command's second word counts on from bit 64. Bits at and above `nbits` are 0. -/
def tableWords (nbits w : Nat) : Word × Word :=
  (BitVec.ofNat 64 (w % 2 ^ nbits), BitVec.ofNat 64 (w % 2 ^ nbits / 2 ^ 64))

/-- What the decoder reads from a word of spec/opcode_table.json. -/
def decodeTableWord (nbits w : Nat) : Option Instr :=
  match decode [(tableWords nbits w).1, (tableWords nbits w).2] with
  | .ok i => some i
  | .error _ => none

end Sys2Proof
end

