-- ==== Sys2Proof/Config.lean ====
section
/-! DEFINITION. What an implementation fixes (spec/00_scope.md R6), the vocabulary of the raster requests
(spec/20_memory.md R81 to R84), and the two uninterpreted raster routines as free values (R85). -/

namespace Sys2Proof

/-- The colour-format enumeration (R33). PRESUMED (the spec's own item G3), log 12. -/
inductive ColorFormat where
  | rgba | yuv | ci | ia | i
deriving DecidableEq, Repr

/-- Bits per pixel, "one of 4, 8, 16, 32" (R31). -/
inductive Bpp where
  | b4 | b8 | b16 | b32
deriving DecidableEq, Repr

/-- How a pixel wider than a byte is laid in bytes (R81). -/
inductive ByteOrder where
  | be | le
deriving DecidableEq, Repr

/-- The space a view lies in: system memory or tmem (R81). -/
inductive Space where
  | sys | tmem
deriving DecidableEq, Repr

/-- A view handed to the raster collaborator (R81). -/
structure View where
  space       : Space
  base        : Nat
  width       : Nat
  height      : Nat
  pitch       : Nat
  colorFormat : ColorFormat
  bpp         : Bpp
  order       : ByteOrder
deriving DecidableEq, Repr

/-- A rectangle of UQ30.2 raws, as the unbounded integers a request carries (R12, R15). -/
structure RawRect where
  x0 : Nat
  y0 : Nat
  x1 : Nat
  y1 : Nat
deriving DecidableEq, Repr

/-- A rectangle in texture-image coordinates, four UQ30.2 raws (R34 `rect`, R36). -/
structure TileRect where
  s0 : BitVec 32
  t0 : BitVec 32
  s1 : BitVec 32
  t1 : BitVec 32
deriving DecidableEq, Repr

/-- A pair of SQ6.10 raws, horizontal then vertical: `(s, t)` or `(dsdx, dtdy)` (R84, R127). -/
structure CoordPair where
  h : Int
  v : Int
deriving DecidableEq, Repr

/-- Four named 8-bit channels (R45, R80). -/
structure Rgba where
  r : Byte
  g : Byte
  b : Byte
  a : Byte
deriving DecidableEq, Repr

/-- `pp`: the last values forwarded to the pixel pipeline (R45). -/
structure PipelineRegs where
  otherModes : Word
  combine    : Word
  blend      : Rgba
deriving DecidableEq, Repr

/-- `LOADTILE_SRC_ORIGIN` (R6, R194). -/
inductive SrcOrigin where
  | rectOrigin | zero
deriving DecidableEq, Repr

/-- `TEXRECT_DEC`, 1 raw or 4 raw (R6, R211). -/
inductive TexRectDec where
  | ulp | one
deriving DecidableEq, Repr

/-- `CHANNEL_NAME_ORDER` (R6, R16). -/
inductive ChannelOrder where
  | lsbFirst | msbFirst
deriving DecidableEq, Repr

/-- A run of system-memory addresses that resolve: `size` bytes from `base`, or every address from `base`
upward where `size` is `none`. -/
structure Region where
  base : Nat
  size : Option Nat
deriving DecidableEq, Repr

/-- The parameters of R6 that a model takes as arguments. They stand in `State` (no step changes them), so every
statement holds for each of their values (log 6, log 7, log 14). -/
structure Params where
  /-- `MEM_RESOLVES` (R77), as the regions whose addresses resolve. -/
  memMap            : List Region
  /-- `LOADTILE_SRC_ORIGIN` (R194). -/
  loadTileSrcOrigin : SrcOrigin
  /-- The order tag both views of Load Tile carry: "the same `order`" (R195), which one the spec leaves open. -/
  loadTileOrder     : ByteOrder
  /-- `TEXRECT_DEC` (R211). -/
  texRectDec        : TexRectDec
  /-- `TEXRECT_BYTE_ORDER`, the source view's tag (R75(e)). -/
  texRectSrcOrder   : ByteOrder
  /-- `TEXRECT_BYTE_ORDER`, the destination view's tag (R75(e)). -/
  texRectDstOrder   : ByteOrder
  /-- `CHANNEL_NAME_ORDER` (R16). -/
  channelNameOrder  : ChannelOrder
deriving DecidableEq, Repr

/-- FREE VALUE (R85, log 9): the byte `fill_rect_with_pipeline` leaves at each offset of its destination view's
footprint, from the routine's arguments (R83) and the bytes of that view. -/
opaque Config.fillRectWithPipeline (dst : View) (rect : RawRect) (color : Rgba) (pipeline : PipelineRegs)
    (dstBytes : List Byte) : Nat → Byte

/-- FREE VALUE (R85, log 9): the byte `draw_rect_with_slopes` leaves at each offset of its destination view's
footprint, from the routine's arguments (R84) and the bytes of its two views. -/
opaque Config.drawRectWithSlopes (dst : View) (dstRect : RawRect) (src : View) (base delta : CoordPair)
    (dstBytes srcBytes : List Byte) : Nat → Byte

end Sys2Proof
end

