-- ==== Sys2Proof/Machine/Params.lean ====
section
/-! DEFINITION. The parameters' values right after reset and the literal sizes (spec/00_scope.md R6). -/

namespace Sys2Proof.Machine

/-- `TMEM_BYTES` (R6, R37). -/
def tmemBytes : Nat := 4096

/-- `CMDBUF_WORDS` (R6, R39). -/
def cmdbufWords : Nat := 16

/-- `WORK_W`, `WORK_H`: the framebuffer working area in pixels (R6, R213). -/
def workW : Nat := 320
def workH : Nat := 240

/-- `ONE_Q2`: the raw of 1.0 in a 30.2 format (R12). -/
def oneQ2 : Nat := 4

/-- What a byte of memory reads as that nothing has written: 0. For tmem that is the default of `RESET_STATE` (R48);
for system memory the spec gives none. DESIGN CHOICE, unsafe: log 5, log 8. -/
def unlistedByte : Byte := 0

/-- The defaults of R6, with every address resolving (spec/95_test_vectors.md section 0) and the order tag of Load
Tile's views BE. DESIGN CHOICE, unsafe: log 6, log 7, log 14. -/
def defaultParams : Params where
  memMap            := [⟨0, none⟩]
  loadTileSrcOrigin := .rectOrigin
  loadTileOrder     := .be
  texRectDec        := .ulp
  texRectSrcOrder   := .be
  texRectDstOrder   := .be
  channelNameOrder  := .lsbFirst

end Sys2Proof.Machine
end

