-- ==== Sys2Proof/Machine/State.lean ====
section
/-! DEFINITION. The machine's state as plain data (spec/10_state.md), its reset (R48, R300), and the reasons a step
can stop. -/

namespace Sys2Proof.Machine

/-- An image-format register (R31). -/
structure ImageFormat where
  colorFormat : ColorFormat
  bpp         : Bpp
  width       : Nat
  dramAddr    : BitVec 26
deriving DecidableEq, Repr

/-- The clip rectangle, four SQ30.2 raws (R38). -/
structure ClipRect where
  x0 : BitVec 32
  y0 : BitVec 32
  x1 : BitVec 32
  y1 : BitVec 32
deriving DecidableEq, Repr

/-- A tile's format fields: every field but `rect` (R34). Axis 0 is S, axis 1 is T. -/
structure TileFormat where
  colorFormat : ColorFormat
  bpp         : Bpp
  pitch       : Nat
  tmemAddr    : Nat
  palette     : BitVec 4
  clampS      : Bool
  clampT      : Bool
  mirrorS     : Bool
  mirrorT     : Bool
  maskS       : Nat
  maskT       : Nat
  shiftS      : BitVec 4
  shiftT      : BitVec 4
deriving DecidableEq, Repr

/-- A tile descriptor: the format fields, replaced by Set Tile, and `rect`, replaced by Load Tile (R34, R36). -/
structure Tile where
  format : TileFormat
  rect   : TileRect
deriving DecidableEq, Repr

/-- The cycle-mode register's four values (R42). -/
inductive CycleMode where
  | one | two | copy | fill
deriving DecidableEq, Repr

/-- The four fatal faults (R260). -/
inductive FaultKind where
  | loadTileBpp | fillAlign | fillMode | mem
deriving DecidableEq, Repr

/-- `fault_latch`: a set of fault kinds, one flag for each (R44). -/
structure FaultLatch where
  loadTileBpp : Bool
  fillAlign   : Bool
  fillMode    : Bool
  mem         : Bool
deriving DecidableEq, Repr

/-- A fatal fault with the value recorded on `FAULT` (R260). -/
inductive FaultReport where
  /-- `F_LOADTILE_BPP`: `(i, tiles[i].bpp, tex.bpp)`. -/
  | loadTileBpp (tile : BitVec 3) (tileBpp texBpp : Bpp)
  /-- `F_FILL_ALIGN`: `(X0, X1, c)`. -/
  | fillAlign (x0 x1 c : Nat)
  /-- `F_FILL_MODE`: `cycle_mode`. -/
  | fillMode (mode : CycleMode)
  /-- `F_MEM`: the lowest address that does not resolve. -/
  | mem (addr : Nat)
deriving DecidableEq, Repr

/-- A transaction on MEM: the view the command obtains, from the byte address up (R73). -/
inductive MemView where
  | read (addr : Nat)
  | write (addr : Nat)
deriving DecidableEq, Repr

/-- An event on one of the interfaces PP (R80), MEM (R73), RAST (R82 to R84), FAULT (R266), DIAG (R267). -/
inductive Event where
  | ppOtherModes (raw : Word)
  | ppCombine (raw : Word)
  | ppBlendColor (c : Rgba)
  | mem (v : MemView)
  | copyRect (dst : View) (extentW extentH : Nat) (src : View) (srcRect : TileRect)
  | fillRect (dst : View) (rect : RawRect) (color : BitVec 32)
  | fillRectWithPipeline (dst : View) (rect : RawRect) (color : Rgba) (pipeline : PipelineRegs)
  | drawRectWithSlopes (dst : View) (dstRect : RawRect) (src : View) (base delta : CoordPair)
  | fault (f : FaultReport)
  | unknownOpcode (op : BitVec 6)
  | unknownFormat (code : BitVec 3)
deriving DecidableEq, Repr

/-- What `submit` returned for the step, of the two outcomes after which the machine goes on (R8, R266). -/
inductive StepOutcome where
  | ok
  | fault (k : FaultKind)
deriving DecidableEq, Repr

/-- The complete state of the GCP (R30), and beside it what its interfaces hold. -/
structure State where
  /-- `cmdbuf[0..15]` (R39). -/
  cmdbuf     : Vector Word 16
  /-- `cmdlen` (R39). -/
  cmdlen     : Nat
  /-- `fb`, the render-target image register (R31). -/
  fb         : ImageFormat
  /-- `tex`, the texture-source image register (R31). -/
  tex        : ImageFormat
  /-- `clip` (R38). -/
  clip       : ClipRect
  /-- `tiles[0..7]` (R34). -/
  tiles      : Vector Tile 8
  /-- `fill_color` (R41). -/
  fillColor  : BitVec 32
  /-- `cycle_mode` (R42). -/
  cycleMode  : CycleMode
  /-- `tmem[0..4095]` (R37). -/
  tmem       : List Host.Cell
  /-- `fault_latch` (R44). -/
  faultLatch : FaultLatch
  /-- `pp` (R45). -/
  pp         : PipelineRegs
  /-- System memory, which the memory collaborator owns (R71). -/
  sysMem     : List Host.Cell
  /-- The parameters of R6; no step changes them. -/
  params     : Params
  /-- CMD_IN: the words the host has handed over and the GCP has not taken, next word first (R79). -/
  cmdIn      : List Word
  /-- The events the latest `submit` emitted, MEM transactions among them, in one order (R9, log 4). -/
  events     : List Event
  /-- The outcome the latest `submit` returned (R8). -/
  outcome    : StepOutcome
deriving DecidableEq, Repr

/-- The model's own stop. The spec's four faults are NOT here: their entry is described (R266), so a meaning takes
them and answers a next state (log 1). -/
inductive Fault where
  /-- Raised by `submit` where `cmdlen` is already 16: no rule says what a full buffer does (R149(d)). No run
  reaches it (R40(c)). Safe: the machine stops where the spec says nothing (log 16). -/
  | commandBufferFull
deriving DecidableEq, Repr

/-- The refusals of R268, each a step to which the spec gives no meaning (R8). All safe: the machine stops where the
spec makes no statement (log 2). -/
inductive Refusal where
  /-- An instruction without a meaning in this model, by its mnemonic. Safe. -/
  | notModelled (mnemonic : String)
  /-- Load Tile with `s1 < s0` or `t1 < t0` (R196), Texture Rectangle on an inverted tile rectangle (R215), Fill
  Rectangle with `X1 < X0` or `Y1 < Y0` (R240). Safe. -/
  | invertedRect
  /-- Load Tile writing (R196) or Texture Rectangle reading (R215) past tmem byte 4095. Safe. -/
  | tmemRange
  /-- Texture Rectangle narrower or lower than `TEXRECT_DEC` (R215). Safe. -/
  | degenerateRect
  /-- Fill Rectangle whose rescaled right edge is negative (R240). Safe. -/
  | rescaleUnderflow
  /-- Fill Rectangle with a rescaled coordinate that is no whole pixel (R240). Safe. -/
  | fractionalRect
  /-- Fill Rectangle reaching outside the 320 by 240 view (R240). Safe. -/
  | outsideWorkArea
deriving DecidableEq, Repr

/-- The image register the setters store from an all-zero word (R48). -/
def ImageFormat.default : ImageFormat := { colorFormat := .rgba, bpp := .b4, width := 1, dramAddr := 0 }

/-- The tile the setters store from all-zero words (R48). -/
def Tile.default : Tile where
  format :=
    { colorFormat := .rgba, bpp := .b4, pitch := 0, tmemAddr := 0, palette := 0, clampS := false, clampT := false,
      mirrorS := false, mirrorT := false, maskS := 0, maskT := 0, shiftS := 0, shiftT := 0 }
  rect := ⟨0, 0, 0, 0⟩

/-- The machine right after reset: `cmdlen = 0` and `fault_latch` empty as R48 and R300 require, and the default of
`RESET_STATE` for the rest (R48). DESIGN CHOICE, unsafe: log 3 to log 8. -/
def State.reset : State where
  cmdbuf     := Vector.replicate 16 0
  cmdlen     := 0
  fb         := ImageFormat.default
  tex        := ImageFormat.default
  clip       := ⟨0, 0, 0, 0⟩
  tiles      := Vector.replicate 8 Tile.default
  fillColor  := 0
  cycleMode  := .one
  tmem       := []
  faultLatch := ⟨false, false, false, false⟩
  pp         := ⟨0, 0, ⟨0, 0, 0, 0⟩⟩
  sysMem     := []
  params     := defaultParams
  cmdIn      := []
  events     := []
  outcome    := .ok

end Sys2Proof.Machine
end

