-- ==== Sys2Proof/Machine/Operands.lean ====
section
/-! DEFINITION. Operand assembly (spec/30_encoding.md R123 to R127), fixed-point helpers (spec/00_scope.md R12, R15),
colour channels (R16) and derived quantities (spec/10_state.md R32). -/

namespace Sys2Proof.Machine

/-- A number of bits per pixel (R31). -/
def bppBits : Bpp → Nat
  | .b4 => 4
  | .b8 => 8
  | .b16 => 16
  | .b32 => 32

/-- `bpp = 4 << size_f` (R123). -/
def bppOfSize (size : BitVec 2) : Bpp :=
  match size.toNat with
  | 0 => .b4
  | 1 => .b8
  | 2 => .b16
  | _ => .b32

/-- `FORMAT_CODES`: codes 0 to 4, and 5 to 7 match no member (R33, R123). PRESUMED (G3), log 12. -/
def formatCodes (code : BitVec 3) : Option ColorFormat :=
  match code.toNat with
  | 0 => some .rgba
  | 1 => some .yuv
  | 2 => some .ci
  | 3 => some .ia
  | 4 => some .i
  | _ => none

/-- The colour format of a code, RGBA substituted for an unknown one (R123, R170). -/
def colorFormatOf (code : BitVec 3) : ColorFormat := (formatCodes code).getD .rgba

/-- The diagnostic of an unknown code (R170, R267). -/
def formatDiag (code : BitVec 3) : List Event :=
  match formatCodes code with
  | some _ => []
  | none => [.unknownFormat code]

/-- An image register from its fields (R123). -/
def imageOf (fmt : BitVec 3) (size : BitVec 2) (width : BitVec 10) (addr : BitVec 26) : ImageFormat where
  colorFormat := colorFormatOf fmt
  bpp         := bppOfSize size
  width       := width.toNat + 1
  dramAddr    := addr

/-- A 12-bit coordinate as a 32-bit raw, by zero extension: UQ30.2, and for Set Scissor SQ30.2 (R124). -/
def coord (f : BitVec 12) : BitVec 32 := f.setWidth 32

/-- A texture-coordinate operand: the SQ6.10 raw, by sign extension (R127). -/
def texCoord (f : BitVec 16) : Int := f.toInt

/-- "wrap mask, `(1<<n)-1`" (R125). -/
def maskOf (n : BitVec 4) : Nat := (1 <<< n.toNat) - 1

/-- The two-bit cycle-mode coding (R42, R164). -/
def cycleModeOf (cycle : BitVec 2) : CycleMode :=
  match cycle.toNat with
  | 0 => .one
  | 1 => .two
  | 2 => .copy
  | _ => .fill

/-- `pitch(img) = (width * bpp) div 8`, recomputed at each use (R32). -/
def pitchOf (img : ImageFormat) : Nat := img.width * bppBits img.bpp / 8

/-- `floor_Q2`: the integer part of a UQ30.2 raw (R12). -/
def floorQ2 (raw : Nat) : Nat := raw / oneQ2

/-- `npix(d)`: the inclusive pixel count of a raw difference (R15). -/
def npix (d : Nat) : Nat := floorQ2 d + 1

/-- `r.s1 < r.s0` or `r.t1 < r.t0` (R196, R215). -/
def inverted (r : TileRect) : Bool := r.s1.toNat < r.s0.toNat || r.t1.toNat < r.t0.toNat

/-- The inclusive width and height in pixels of a tile rectangle (R192, R214). -/
def rectWidth (r : TileRect) : Nat := npix (r.s1.toNat - r.s0.toNat)
def rectHeight (r : TileRect) : Nat := npix (r.t1.toNat - r.t0.toNat)

/-- `TEXRECT_DEC` in raw units (R211). -/
def decRaw : TexRectDec → Nat
  | .ulp => 1
  | .one => 4

/-- The bytes of a packed colour from the most significant down. -/
def colorByte (c : BitVec 32) (lo : Nat) : Byte := c.extractLsb' lo 8

/-- A packed colour read as ABGR8888: A in bits 7:0 up to R in bits 31:24 under `lsb_first`, the mirror image under
`msb_first` (R16, R167, R238). -/
def abgr8888 (order : ChannelOrder) (c : BitVec 32) : Rgba :=
  match order with
  | .lsbFirst => { r := colorByte c 24, g := colorByte c 16, b := colorByte c 8, a := colorByte c 0 }
  | .msbFirst => { r := colorByte c 0, g := colorByte c 8, b := colorByte c 16, a := colorByte c 24 }

/-- The four bytes of a pixel of a big-endian 32-bit view, lowest address first (R81, R87). -/
def pixelBytesBE (c : BitVec 32) : List Byte := [colorByte c 24, colorByte c 16, colorByte c 8, colorByte c 0]

/-- The number of bytes in a view's footprint: `(height-1)*pitch + (width*bpp + 7) div 8` (R85(b)). -/
def footprintLen (v : View) : Nat := (v.height - 1) * v.pitch + (v.width * bppBits v.bpp + 7) / 8

end Sys2Proof.Machine
end

