-- ==== Sys2Proof/Machine/Flags.lean ====
section
/-! DEFINITION. The block has no status flags and no condition codes (spec/10_state.md R46). What it has in their
place: the sticky fault latch (R44), and the conditions the handlers test (spec/60_exceptions.md R260, R265). -/

namespace Sys2Proof.Machine

/-- The kind of a fault report (R260). -/
def FaultReport.kind : FaultReport → FaultKind
  | .loadTileBpp .. => .loadTileBpp
  | .fillAlign .. => .fillAlign
  | .fillMode _ => .fillMode
  | .mem _ => .mem

/-- The fault codes (R260). -/
def FaultKind.code : FaultKind → Nat
  | .loadTileBpp => 1
  | .fillAlign => 2
  | .fillMode => 3
  | .mem => 4

/-- `fault_latch ∪ {k}` (R266). -/
def FaultLatch.insert (l : FaultLatch) : FaultKind → FaultLatch
  | .loadTileBpp => { l with loadTileBpp := true }
  | .fillAlign => { l with fillAlign := true }
  | .fillMode => { l with fillMode := true }
  | .mem => { l with mem := true }

/-- Whether a kind is a member of the latch. -/
def FaultLatch.has (l : FaultLatch) : FaultKind → Bool
  | .loadTileBpp => l.loadTileBpp
  | .fillAlign => l.fillAlign
  | .fillMode => l.fillMode
  | .mem => l.mem

/-- Load Tile's format check passes: equal bpp, and 8 or 16 (R193). -/
def loadable (tileBpp texBpp : Bpp) : Bool := tileBpp == texBpp && (texBpp == .b8 || texBpp == .b16)

/-- `c = 32 div fb.bpp` (R233). -/
def bppConv (b : Bpp) : Nat := 32 / bppBits b

/-- Fill Rectangle's raw alignment check passes (R234). -/
def aligned (c x0 x1 : Nat) : Bool := x0 % c == 0 && (x1 + oneQ2) % c == 0

/-- A raw that is a whole number of pixels (R240(c)). -/
def wholePixel (raw : Nat) : Bool := raw % oneQ2 == 0

end Sys2Proof.Machine
end

