-- ==== Sys2Proof/Machine/Ops.lean ====
section
/-! DEFINITION. The shared operations: sparse byte memory in one canonical form (spec/10_state.md R37,
spec/20_memory.md R71), address resolution (R77), tile access (R34), output events (spec/00_scope.md R9, R14), and
fault entry (spec/60_exceptions.md R266). There is no return from a fault: nothing is saved (R266, R269). -/

namespace Sys2Proof.Machine

/-! ### Bytes at addresses -/

/-- The byte at an address; an unlisted one reads as `unlistedByte`. -/
def readByte : List Host.Cell → Nat → Byte
  | [], _ => unlistedByte
  | (k, v) :: m, a => if k = a then v else readByte m a

/-- A listed byte at its place in the order of addresses. -/
def insertCell : List Host.Cell → Nat → Byte → List Host.Cell
  | [], a, b => [(a, b)]
  | (k, v) :: m, a, b => if a < k then (a, b) :: (k, v) :: m else (k, v) :: insertCell m a b

/-- Writing a byte lists it at its place, or lists nothing where the byte is what an unlisted address reads as. -/
def writeByte (m : List Host.Cell) (a : Nat) (b : Byte) : List Host.Cell :=
  let rest := m.filter fun c => c.1 != a
  if b = unlistedByte then rest else insertCell rest a b

/-- The `n` bytes from `a` up, lowest address first: `MemRead(addr, n)` (R14). -/
def readBytes (m : List Host.Cell) (a n : Nat) : List Byte := (List.range n).map fun k => readByte m (a + k)

/-- Bytes written from `a` up, lowest address first: `MemWrite(addr, n, bytes)` (R14). -/
def writeBytes : List Host.Cell → Nat → List Byte → List Host.Cell
  | m, _, [] => m
  | m, a, b :: bs => writeBytes (writeByte m a b) (a + 1) bs

/-- Rows of bytes, `pitch` apart, in ascending order, so that a later row overwrites an earlier one (R86). -/
def writeRows : List Host.Cell → Nat → Nat → List (List Byte) → List Host.Cell
  | m, _, _, [] => m
  | m, a, pitch, row :: rows => writeRows (writeBytes m a row) (a + pitch) pitch rows

/-- The canonical form: strictly rising addresses, all at or above `lo`, no entry equal to `unlistedByte`. -/
def canonicalFrom : Nat → List Host.Cell → Bool
  | _, [] => true
  | lo, (k, v) :: m => decide (lo ≤ k) && v != unlistedByte && canonicalFrom (k + 1) m

/-- `Memory.wf`: the canonical form holds. -/
def Memory.wf (m : List Host.Cell) : Bool := canonicalFrom 0 m

/-! ### Address resolution -/

/-- Whether a region holds an address. -/
def regionHolds (r : Region) (a : Nat) : Bool :=
  decide (r.base ≤ a) && (match r.size with
    | none => true
    | some n => decide (a < r.base + n))

/-- `MEM_RESOLVES(a)` (R77). -/
def resolves (map : List Region) (a : Nat) : Bool := map.any fun r => regionHolds r a

/-- The first address past a region, if it ends. -/
def regionEnd (r : Region) : Option Nat := r.size.map (r.base + ·)

/-- The lowest address of `lo` to `lo + n - 1` that does not resolve. Such an address is `lo` itself or the end of
a region, so these are the only candidates. -/
def firstUnresolved (map : List Region) (lo n : Nat) : Option Nat :=
  ((lo :: map.filterMap regionEnd).filter fun a =>
    decide (lo ≤ a) && decide (a < lo + n) && !resolves map a).min?

/-- The lowest address that does not resolve among `rows` rows of `n` bytes, `pitch` apart from `base`
(R197, R239, R260). -/
def lowestUnresolved (map : List Region) (base pitch n rows : Nat) : Option Nat :=
  ((List.range rows).filterMap fun j => firstUnresolved map (base + j * pitch) n).min?

/-! ### Tiles -/

/-- `tiles[i]`. -/
def State.tile (s : State) (i : BitVec 3) : Tile := s.tiles[i.toNat]'i.isLt

/-- `tiles[i]` replaced. -/
def State.setTile (s : State) (i : BitVec 3) (t : Tile) : State :=
  { s with tiles := s.tiles.set i.toNat t i.isLt }

/-- The format fields of `tiles[i]` replaced, `rect` kept (R36). -/
def State.setTileFormat (s : State) (i : BitVec 3) (f : TileFormat) : State :=
  s.setTile i { s.tile i with format := f }

/-- `tiles[i].rect` replaced, the format fields kept (R36, R191). -/
def State.setTileRect (s : State) (i : BitVec 3) (r : TileRect) : State :=
  s.setTile i { s.tile i with rect := r }

/-! ### Outputs and fault entry -/

/-- `emit` (R14). -/
def State.emit (s : State) (es : List Event) : State := { s with events := s.events ++ es }

/-- A view obtained on MEM: a transaction in the step's one list of events (R9, R73). Each command obtains its view
before it issues its request on RAST (decision D21, log 4). -/
def State.obtain (s : State) (v : MemView) : State := s.emit [.mem v]

/-- The view an event obtains on MEM, if it is a MEM transaction. -/
def Event.memView : Event → Option MemView
  | .mem v => some v
  | .ppOtherModes _ => none
  | .ppCombine _ => none
  | .ppBlendColor _ => none
  | .copyRect .. => none
  | .fillRect .. => none
  | .fillRectWithPipeline .. => none
  | .drawRectWithSlopes .. => none
  | .fault _ => none
  | .unknownOpcode _ => none
  | .unknownFormat _ => none

/-- The views the latest `submit` obtained on MEM, in order: the MEM transactions among its events (R9, R73). -/
def State.memViews (s : State) : List MemView := s.events.filterMap Event.memView

/-- The state fault entry leaves (R266): the FAULT event, the latch, the outcome returned to `submit`. The handler's
earlier writes stay; `submit` then clears `cmdlen` (R148). -/
def State.raised (s : State) (f : FaultReport) : State :=
  { s.emit [.fault f] with faultLatch := s.faultLatch.insert f.kind, outcome := .fault f.kind }

/-- `raise Fault(k)` (R266): the machine goes on, so it is a next state (R269, log 1). -/
def raise (f : FaultReport) (s : State) : Host.Outcome State Fault Refusal := .next (s.raised f)

end Sys2Proof.Machine
end

