-- ==== Sys2Proof/Machine/Assembler.lean ====
section
/-! DEFINITION. The parts of the command assembler (spec/40_assembler_dispatch.md R143 to R148) that `submit` in
Step.lean puts together: taking a word, the unknown opcode, completion. -/

namespace Sys2Proof.Machine

/-- The word appended to the pending buffer and the length increased (R143); the step's own outputs start empty
(R9). -/
def State.append (s : State) (word : Word) (h : s.cmdlen < 16) : State :=
  { s with
    cmdbuf  := s.cmdbuf.set s.cmdlen word h
    cmdlen  := s.cmdlen + 1
    events  := []
    outcome := .ok }

/-- The first buffered word (R40(a), R110). -/
def State.word0 (s : State) : Word := s.cmdbuf[0]

/-- The second buffered word (R111). -/
def State.word1 (s : State) : Word := s.cmdbuf[1]

/-- The command still waits for a word: `cmdlen < words(op)` (R145). -/
def State.waits (s : State) : Bool := s.cmdlen < words (opcodeOf s.word0)

/-- Unknown opcode: a diagnostic and nothing else (R147). -/
def execUnknownOpcode (op : BitVec 6) (s : State) : Host.Outcome State Fault Refusal :=
  .next (s.emit [.unknownOpcode op])

/-- What a rejection of the full buffered word set does. An unknown opcode has its effect (R147); the other two
rejections do not arise from a full word set, and the word is dropped as a rejected command is (R40(b)). -/
def execReject (r : DecodeReject) (s : State) : Host.Outcome State Fault Refusal :=
  match r with
  | .unknownOpcode op => execUnknownOpcode op s
  | .secondWordMissing => .next s
  | .noWord => .next s

/-- Completion: `cmdlen <- 0`, also after a fault (R148). -/
def complete : Host.Outcome State Fault Refusal → Host.Outcome State Fault Refusal
  | .next s => .next { s with cmdlen := 0 }
  | .fault f => .fault f
  | .refused r => .refused r

/-- The words by which an instruction comes to run in the very next step: the last word of the command waits in
CMD_IN, an earlier one already stands in the pending buffer (log 17). -/
def State.queueCommand (s : State) (w0 w1 : Word) : State :=
  if words (opcodeOf w0) = 2 then
    { s with cmdbuf := s.cmdbuf.set 0 w0, cmdlen := 1, cmdIn := w1 :: s.cmdIn }
  else { s with cmdlen := 0, cmdIn := w0 :: s.cmdIn }

end Sys2Proof.Machine
end

