-- ==== Sys2Proof/Machine/Raster.lean ====
section
/-! DEFINITION. The raster collaborator (spec/20_memory.md R81 to R87): the two reference routines, and how the two
uninterpreted ones change memory (log 9, log 10). -/

namespace Sys2Proof.Machine

/-- Bytes per texel, `B = bpp div 8` (R190). -/
def texelBytes (b : Bpp) : Nat := bppBits b / 8

/-- The rows `copy_rect` reads from the source space: row `j` is the `cw*B` bytes from
`S.base + (T0+j)*S.pitch + S0*B` up (R86). -/
def sourceRows (src : List Host.Cell) (S : View) (cw h s0 t0 : Nat) : List (List Byte) :=
  (List.range h).map fun j =>
    readBytes src (S.base + (t0 + j) * S.pitch + s0 * texelBytes S.bpp) (cw * texelBytes S.bpp)

/-- Reference `copy_rect` (R86): the destination space after the copy, bytes verbatim, rows in ascending order. -/
def copyRect (dst src : List Host.Cell) (D S : View) (cw h s0 t0 : Nat) : List Host.Cell :=
  writeRows dst D.base D.pitch (sourceRows src S cw h s0 t0)

/-- The pixel columns and rows of a rectangle of whole pixels (R87). -/
def fillCols (r : RawRect) : Nat := npix (r.x1 - r.x0)
def fillRows (r : RawRect) : Nat := npix (r.y1 - r.y0)

/-- The address of the first pixel of a flat fill (R87). -/
def fillStart (D : View) (r : RawRect) : Nat := D.base + floorQ2 r.y0 * D.pitch + floorQ2 r.x0 * 4

/-- Reference `fill_rect` (R87): every pixel of the rectangle gets the colour, most significant byte first. -/
def fillRect (m : List Host.Cell) (D : View) (r : RawRect) (c : BitVec 32) : List Host.Cell :=
  writeRows m (fillStart D r) D.pitch
    (List.replicate (fillRows r) (List.replicate (fillCols r) (pixelBytesBE c)).flatten)

/-- The bytes of a view's footprint (R85). -/
def viewBytes (m : List Host.Cell) (v : View) : List Byte := readBytes m v.base (footprintLen v)

/-- A view's footprint overwritten with the bytes an uninterpreted routine gives, and no byte outside it
(R85(b)). -/
def overwriteView (m : List Host.Cell) (v : View) (new : Nat → Byte) : List Host.Cell :=
  writeBytes m v.base ((List.range (footprintLen v)).map new)

/-- The framebuffer view over the fixed working area (R213, R237): base and pitch from `fb`, 320 by 240 pixels. -/
def fbView (fb : ImageFormat) (fmt : ColorFormat) (bpp : Bpp) (order : ByteOrder) : View where
  space       := .sys
  base        := fb.dramAddr.toNat
  width       := workW
  height      := workH
  pitch       := pitchOf fb
  colorFormat := fmt
  bpp         := bpp
  order       := order

end Sys2Proof.Machine
end

