-- ==== Sys2Proof/Machine/FillRectangle.lean ====
section
/-! DEFINITION. Fill Rectangle (spec/44_fill_rectangle.md R230 to R241). -/

namespace Sys2Proof.Machine

/-- The rectangle of the command's fields, UQ30.2 raws (R230). -/
def fillFields (x1 y1 x0 y0 : BitVec 12) : RawRect :=
  ⟨(coord x0).toNat, (coord y0).toNat, (coord x1).toNat, (coord y1).toNat⟩

/-- `(X1 + 4) div c < 4`, that is `X1' < 0` (R240(b)). -/
def underflows (c : Nat) (r : RawRect) : Bool := (r.x1 + oneQ2) / c < oneQ2

/-- The rescale to 32-bit words: `X0' = X0 div c`, `X1' = ((X1 + 4) div c) - 4`, y unchanged (R233, R235). -/
def rescale (c : Nat) (r : RawRect) : RawRect where
  x0 := r.x0 / c
  y0 := r.y0
  x1 := (r.x1 + oneQ2) / c - oneQ2
  y1 := r.y1

/-- All four coordinates are whole pixels (R240(c)). -/
def wholePixels (r : RawRect) : Bool := wholePixel r.x0 && wholePixel r.y0 && wholePixel r.x1 && wholePixel r.y1

/-- `(X1' div 4) >= 320` or `(Y1' div 4) >= 240` (R240(d)). -/
def outsideWork (r : RawRect) : Bool := workW ≤ floorQ2 r.x1 || workH ≤ floorQ2 r.y1

/-- The destination view of mode Fill: 32-bit big-endian RGBA (R236, R237). -/
def fillView (s : State) : View := fbView s.fb .rgba .b32 .be

/-- The destination view of mode One: 32-bit little-endian RGBA (R237, R238). -/
def pipelineView (s : State) : View := fbView s.fb .rgba .b32 .le

/-- The lowest byte address of the flat fill that does not resolve (R239). -/
def fillUnresolved (s : State) (r : RawRect) : Option Nat :=
  lowestUnresolved s.params.memMap (fillStart (fillView s) r) (fillView s).pitch (fillCols r * 4) (fillRows r)

/-- The lowest byte address of mode One's whole footprint that does not resolve (R239). -/
def pipelineUnresolved (s : State) : Option Nat :=
  lowestUnresolved s.params.memMap (pipelineView s).base 0 (footprintLen (pipelineView s)) 1

/-- The state a flat fill of the rescaled rectangle leaves, with the write view on MEM and then the request on RAST
(R72, R236). -/
def State.flatFillDone (s : State) (r : RawRect) : State :=
  { (s.obtain (.write s.fb.dramAddr.toNat)).emit [.fillRect (fillView s) r s.fillColor] with
    sysMem := fillRect s.sysMem (fillView s) r s.fillColor }

/-- The fill colour as mode One reads it, ABGR8888 (R238). -/
def pipelineColor (s : State) : Rgba := abgr8888 s.params.channelNameOrder s.fillColor

/-- The state a fill through the pixel pipeline leaves (R238). Which views it obtains on MEM the spec leaves open: the
routine reads and writes the framebuffer (R72) and R73 allows a read view and a write view. That it obtains the write
view alone, and before the request on RAST, is a DESIGN CHOICE: log 21. -/
def State.pipelineFillDone (s : State) (r : RawRect) : State :=
  { (s.obtain (.write s.fb.dramAddr.toNat)).emit
      [.fillRectWithPipeline (pipelineView s) r (pipelineColor s) s.pp] with
    sysMem := overwriteView s.sysMem (pipelineView s)
      (Config.fillRectWithPipeline (pipelineView s) r (pipelineColor s) s.pp (viewBytes s.sysMem (pipelineView s))) }

/-- Mode Fill: the flat fill, no pipeline (R236, R239). `r` is the rescaled rectangle. -/
def flatFill (r : RawRect) (s : State) : Host.Outcome State Fault Refusal :=
  match fillUnresolved s r with
  | some a => raise (.mem a) s
  | none => .next (s.flatFillDone r)

/-- Mode One: the fill through the pixel pipeline (R238, R239). -/
def pipelineFill (r : RawRect) (s : State) : Host.Outcome State Fault Refusal :=
  match pipelineUnresolved s with
  | some a => raise (.mem a) s
  | none => .next (s.pipelineFillDone r)

/-- The part modes Fill and One share, the tests in the order of R265; `fill` issues the mode's request. -/
def checkedFill (raw : RawRect) (fill : RawRect → State → Host.Outcome State Fault Refusal) (s : State) :
    Host.Outcome State Fault Refusal :=
  let c := bppConv s.fb.bpp
  if !aligned c raw.x0 raw.x1 then raise (.fillAlign raw.x0 raw.x1 c) s
  else if raw.x1 < raw.x0 || raw.y1 < raw.y0 then .refused .invertedRect
  else if underflows c raw then .refused .rescaleUnderflow
  else if !wholePixels (rescale c raw) then .refused .fractionalRect
  else if outsideWork (rescale c raw) then .refused .outsideWorkArea
  else fill (rescale c raw) s

/-- Fill Rectangle: `cycle_mode` selects the behaviour (R231, R232). -/
def execFillRectangle (x1 y1 x0 y0 : BitVec 12) (s : State) : Host.Outcome State Fault Refusal :=
  match s.cycleMode with
  | .two => raise (.fillMode .two) s
  | .copy => raise (.fillMode .copy) s
  | .fill => checkedFill (fillFields x1 y1 x0 y0) flatFill s
  | .one => checkedFill (fillFields x1 y1 x0 y0) pipelineFill s

end Sys2Proof.Machine
end

