-- ==== Sys2Proof/Machine/LoadTile.lean ====
section
/-! DEFINITION. Load Tile (spec/42_load_tile.md R190 to R198). -/

namespace Sys2Proof.Machine

/-- `cw = min(width, tex.width)` (R192). -/
def loadCols (s : State) (r : TileRect) : Nat := min (rectWidth r) s.tex.width

/-- The source origin `(S0, T0)` (R194). -/
def loadOrigin (s : State) (r : TileRect) : Nat × Nat :=
  match s.params.loadTileSrcOrigin with
  | .rectOrigin => (floorQ2 r.s0.toNat, floorQ2 r.t0.toNat)
  | .zero => (0, 0)

/-- The bytes of one copied row, `cw*B` (R195). -/
def loadRowBytes (s : State) (r : TileRect) : Nat := loadCols s r * texelBytes s.tex.bpp

/-- The address of source row `j`'s first byte (R195). -/
def loadSource (s : State) (r : TileRect) (j : Nat) : Nat :=
  s.tex.dramAddr.toNat + ((loadOrigin s r).2 + j) * pitchOf s.tex + (loadOrigin s r).1 * texelBytes s.tex.bpp

/-- `src_view` (R195). -/
def loadSrcView (s : State) (r : TileRect) : View where
  space       := .sys
  base        := s.tex.dramAddr.toNat
  width       := loadCols s r
  height      := rectHeight r
  pitch       := pitchOf s.tex
  colorFormat := s.tex.colorFormat
  bpp         := s.tex.bpp
  order       := s.params.loadTileOrder

/-- `dst_view` (R195). -/
def loadDstView (s : State) (i : BitVec 3) (r : TileRect) : View where
  space       := .tmem
  base        := (s.tile i).format.tmemAddr
  width       := rectWidth r
  height      := rectHeight r
  pitch       := (s.tile i).format.pitch
  colorFormat := (s.tile i).format.colorFormat
  bpp         := (s.tile i).format.bpp
  order       := s.params.loadTileOrder

/-- The copy stays at or below tmem byte 4095 (R190, R196(b)). -/
def loadFits (s : State) (i : BitVec 3) (r : TileRect) : Bool :=
  (s.tile i).format.tmemAddr + (rectHeight r - 1) * (s.tile i).format.pitch + loadRowBytes s r ≤ tmemBytes

/-- The lowest source byte address that does not resolve (R197). -/
def loadUnresolved (s : State) (r : TileRect) : Option Nat :=
  lowestUnresolved s.params.memMap (loadSource s r 0) (pitchOf s.tex) (loadRowBytes s r) (rectHeight r)

/-- tmem after the copy (R195). -/
def loadedTmem (s : State) (i : BitVec 3) (r : TileRect) : List Host.Cell :=
  copyRect s.tmem s.sysMem (loadDstView s i r) (loadSrcView s r) (loadCols s r) (rectHeight r)
    (loadOrigin s r).1 (loadOrigin s r).2

/-- The rectangle of the command's fields (R190). -/
def loadRect (s0 t0 s1 t1 : BitVec 12) : TileRect := ⟨coord s0, coord t0, coord s1, coord t1⟩

/-- The state the copy leaves, with the read view on MEM and then the request on RAST (R72, R195). -/
def State.loadDone (s : State) (i : BitVec 3) (r : TileRect) : State :=
  { (s.obtain (.read s.tex.dramAddr.toNat)).emit
      [.copyRect (loadDstView s i r) (loadCols s r) (rectHeight r) (loadSrcView s r) r] with
    tmem := loadedTmem s i r }

/-- Steps 2 to 5, after `tiles[i].rect` holds `r`: the tests in the order of R265, then the copy (R190). -/
def loadTexels (i : BitVec 3) (r : TileRect) (s : State) : Host.Outcome State Fault Refusal :=
  if inverted r then .refused .invertedRect
  else if !loadable (s.tile i).format.bpp s.tex.bpp then
    raise (.loadTileBpp i (s.tile i).format.bpp s.tex.bpp) s
  else if !loadFits s i r then .refused .tmemRange
  else
    match loadUnresolved s r with
    | some a => raise (.mem a) s
    | none => .next (s.loadDone i r)

/-- Load Tile: step 1 stores the rectangle before any check (R191). -/
def execLoadTile (s0 t0 : BitVec 12) (tile : BitVec 3) (s1 t1 : BitVec 12) (s : State) :
    Host.Outcome State Fault Refusal :=
  loadTexels tile (loadRect s0 t0 s1 t1) (s.setTileRect tile (loadRect s0 t0 s1 t1))

end Sys2Proof.Machine
end

