-- ==== Sys2Proof/Machine/Setters.lean ====
section
/-! DEFINITION. The nine register-setting commands (spec/41_register_setters.md R160 to R170). None reads state other
than its own word, and none touches tmem or system memory. -/

namespace Sys2Proof.Machine

/-- Set Scissor (R160). -/
def execSetScissor (x0 y0 x1 y1 : BitVec 12) (s : State) : Host.Outcome State Fault Refusal :=
  .next { s with clip := ⟨coord x0, coord y0, coord x1, coord y1⟩ }

/-- Set Texture Image (R161, R170). -/
def execSetTextureImage (fmt : BitVec 3) (size : BitVec 2) (width : BitVec 10) (addr : BitVec 26) (s : State) :
    Host.Outcome State Fault Refusal :=
  .next { s.emit (formatDiag fmt) with tex := imageOf fmt size width addr }

/-- Set Color Image: "same decode; replace `fb`" (R162, R170). -/
def execSetColorImage (fmt : BitVec 3) (size : BitVec 2) (width : BitVec 10) (addr : BitVec 26) (s : State) :
    Host.Outcome State Fault Refusal :=
  .next { s.emit (formatDiag fmt) with fb := imageOf fmt size width addr }

/-- Sync Tile: a no-op barrier, no state change and no event (R90, R163). -/
def execSyncTile (s : State) : Host.Outcome State Fault Refusal := .next s

/-- Set Other Modes: the cycle mode, and the whole raw word forwarded and mirrored (R164). -/
def execSetOtherModes (cycle : BitVec 2) (raw : Word) (s : State) : Host.Outcome State Fault Refusal :=
  .next { s.emit [.ppOtherModes raw] with cycleMode := cycleModeOf cycle, pp := { s.pp with otherModes := raw } }

/-- Set Tile: the format fields of one tile, `rect` kept (R125, R165, R170). -/
def execSetTile (fmt : BitVec 3) (size : BitVec 2) (line tmem : BitVec 9) (tile : BitVec 3) (palette : BitVec 4)
    (clampT mirrorT : BitVec 1) (maskT shiftT : BitVec 4) (clampS mirrorS : BitVec 1) (maskS shiftS : BitVec 4)
    (s : State) : Host.Outcome State Fault Refusal :=
  .next ((s.emit (formatDiag fmt)).setTileFormat tile
    { colorFormat := colorFormatOf fmt
      bpp         := bppOfSize size
      pitch       := line.toNat * 8
      tmemAddr    := tmem.toNat * 8
      palette     := palette
      clampS      := clampS == 1#1
      clampT      := clampT == 1#1
      mirrorS     := mirrorS == 1#1
      mirrorT     := mirrorT == 1#1
      maskS       := maskOf maskS
      maskT       := maskOf maskT
      shiftS      := shiftS
      shiftT      := shiftT })

/-- Set Combine Mode: the whole raw word forwarded and mirrored (R166). -/
def execSetCombineMode (raw : Word) (s : State) : Host.Outcome State Fault Refusal :=
  .next { s.emit [.ppCombine raw] with pp := { s.pp with combine := raw } }

/-- Set Blend Color: the packed colour's bytes, bits 31:24 first, read as ABGR8888 and forwarded (R167). -/
def execSetBlendColor (r g b a : BitVec 8) (s : State) : Host.Outcome State Fault Refusal :=
  let c := abgr8888 s.params.channelNameOrder (r ++ g ++ b ++ a)
  .next { s.emit [.ppBlendColor c] with pp := { s.pp with blend := c } }

/-- Set Fill Color (R168). -/
def execSetFillColor (color : BitVec 32) (s : State) : Host.Outcome State Fault Refusal :=
  .next { s with fillColor := color }

end Sys2Proof.Machine
end

