-- ==== Sys2Proof/Machine/TextureRectangle.lean ====
section
/-! DEFINITION. Texture Rectangle (spec/43_texture_rectangle.md R210 to R217). -/

namespace Sys2Proof.Machine

/-- `src_view`: the tile's texel block in tmem, counted as Load Tile counts it (R214). -/
def drawSrcView (s : State) (i : BitVec 3) : View where
  space       := .tmem
  base        := (s.tile i).format.tmemAddr
  width       := rectWidth (s.tile i).rect
  height      := rectHeight (s.tile i).rect
  pitch       := (s.tile i).format.pitch
  colorFormat := (s.tile i).format.colorFormat
  bpp         := (s.tile i).format.bpp
  order       := s.params.texRectSrcOrder

/-- `dst_view`: the framebuffer over the fixed working area (R213). -/
def drawDstView (s : State) : View := fbView s.fb s.fb.colorFormat s.fb.bpp s.params.texRectDstOrder

/-- `dst_rect = (x0, y0, x1 - TEXRECT_DEC, y1 - TEXRECT_DEC)` (R211). -/
def drawDstRect (s : State) (x0 y0 x1 y1 : BitVec 12) : RawRect where
  x0 := (coord x0).toNat
  y0 := (coord y0).toNat
  x1 := (coord x1).toNat - decRaw s.params.texRectDec
  y1 := (coord y1).toNat - decRaw s.params.texRectDec

/-- `x1 - x0 < TEXRECT_DEC` or `y1 - y0 < TEXRECT_DEC`, the differences in unbounded integers (R215(a)). -/
def degenerate (s : State) (x0 y0 x1 y1 : BitVec 12) : Bool :=
  (coord x1).toNat < (coord x0).toNat + decRaw s.params.texRectDec ||
    (coord y1).toNat < (coord y0).toNat + decRaw s.params.texRectDec

/-- The source view stays at or below tmem byte 4095 (R215(c)). -/
def drawFits (s : State) (i : BitVec 3) : Bool :=
  (drawSrcView s i).base + footprintLen (drawSrcView s i) ≤ tmemBytes

/-- The lowest byte address of the destination footprint that does not resolve (R216). -/
def drawUnresolved (s : State) : Option Nat :=
  lowestUnresolved s.params.memMap (drawDstView s).base 0 (footprintLen (drawDstView s)) 1

/-- System memory after the uninterpreted routine (R85, R210). -/
def drawnMemory (s : State) (i : BitVec 3) (dstRect : RawRect) (base delta : CoordPair) : List Host.Cell :=
  overwriteView s.sysMem (drawDstView s)
    (Config.drawRectWithSlopes (drawDstView s) dstRect (drawSrcView s i) base delta
      (viewBytes s.sysMem (drawDstView s)) (viewBytes s.tmem (drawSrcView s i)))

/-- The state the request leaves, with the write view on MEM, which R216 names, and then the request on RAST (R210).
That no read view is obtained beside it, though the routine also reads the framebuffer (R72), is a DESIGN CHOICE:
log 21. -/
def State.drawDone (s : State) (i : BitVec 3) (dstRect : RawRect) (base delta : CoordPair) : State :=
  { (s.obtain (.write s.fb.dramAddr.toNat)).emit
      [.drawRectWithSlopes (drawDstView s) dstRect (drawSrcView s i) base delta] with
    sysMem := drawnMemory s i dstRect base delta }

/-- Texture Rectangle: the tests in the order of R265, then one request (R210). -/
def execTextureRectangle (x1 y1 : BitVec 12) (tile : BitVec 3) (x0 y0 : BitVec 12) (sc tc dsdx dtdy : BitVec 16)
    (s : State) : Host.Outcome State Fault Refusal :=
  if degenerate s x0 y0 x1 y1 then .refused .degenerateRect
  else if inverted (s.tile tile).rect then .refused .invertedRect
  else if !drawFits s tile then .refused .tmemRange
  else
    match drawUnresolved s with
    | some a => raise (.mem a) s
    | none =>
        .next (s.drawDone tile (drawDstRect s x0 y0 x1 y1) ⟨texCoord sc, texCoord tc⟩ ⟨texCoord dsdx, texCoord dtdy⟩)

end Sys2Proof.Machine
end

