-- ==== Sys2Proof/Machine/Dispatch.lean ====
section
/-! DEFINITION. The dispatcher: one handler per opcode (spec/40_assembler_dispatch.md R146). -/

namespace Sys2Proof.Machine

def exec (i : Instr) (s : State) : Host.Outcome State Fault Refusal :=
  match i with
  | .textureRectangle x1 y1 tile x0 y0 sc tc dsdx dtdy => Sys2Proof.Machine.execTextureRectangle x1 y1 tile x0 y0 sc tc dsdx dtdy s
  | .syncTile => Sys2Proof.Machine.execSyncTile s
  | .setScissor x0 y0 x1 y1 => Sys2Proof.Machine.execSetScissor x0 y0 x1 y1 s
  | .setOtherModes cycle raw => Sys2Proof.Machine.execSetOtherModes cycle raw s
  | .loadTile s0 t0 tile s1 t1 => Sys2Proof.Machine.execLoadTile s0 t0 tile s1 t1 s
  | .setTile fmt size line tmem tile palette clampT mirrorT maskT shiftT clampS mirrorS maskS shiftS => Sys2Proof.Machine.execSetTile fmt size line tmem tile palette clampT mirrorT maskT shiftT clampS mirrorS maskS shiftS s
  | .fillRectangle x1 y1 x0 y0 => Sys2Proof.Machine.execFillRectangle x1 y1 x0 y0 s
  | .setFillColor color => Sys2Proof.Machine.execSetFillColor color s
  | .setBlendColor r g b a => Sys2Proof.Machine.execSetBlendColor r g b a s
  | .setCombineMode raw => Sys2Proof.Machine.execSetCombineMode raw s
  | .setTextureImage fmt size width addr => Sys2Proof.Machine.execSetTextureImage fmt size width addr s
  | .setColorImage fmt size width addr => Sys2Proof.Machine.execSetColorImage fmt size width addr s

end Sys2Proof.Machine
end

