-- ==== Sys2Proof/Machine/Step.lean ====
section
/-! DEFINITION. The step: `submit(word)` (spec/40_assembler_dispatch.md R143) on the next word of CMD_IN, and how an
instruction is placed where the next step takes it. -/

namespace Sys2Proof.Machine

/-- The handler of the full buffered word set (R146, R147). -/
def dispatch (s : State) : Host.Outcome State Fault Refusal :=
  match decodeWords s.word0 s.word1 with
  | .ok i => exec i s
  | .error r => execReject r s

/-- `submit(word)` (R143): append, wait for a continuation (R145) or dispatch and clear the length (R148). -/
def submit (word : Word) (s : State) : Host.Outcome State Fault Refusal :=
  if h : s.cmdlen < 16 then
    if (s.append word h).waits then .next (s.append word h) else complete (dispatch (s.append word h))
  else .fault .commandBufferFull

/-- One step: the next word of CMD_IN is submitted. With no word waiting the block is idle and keeps all its state
(R278, log 3). -/
def step (s : State) : Host.Outcome State Fault Refusal :=
  match s.cmdIn with
  | [] => .next s
  | w :: rest => submit w { s with cmdIn := rest }

/-- The instruction of a word of spec/opcode_table.json, placed so that the very next step runs it (log 17). -/
def State.withFetchWord (s : State) (nbits w : Nat) : State :=
  s.queueCommand (tableWords nbits w).1 (tableWords nbits w).2

end Sys2Proof.Machine
end

