-- ==== Sys2Proof/Safety.lean ====
section
/-! DEFINITION. What the claims are about: legal states (spec/10_state.md R50), the states reset may leave (R48, R300),
what counts as a safe and a complete run (spec/60_exceptions.md R269, spec/70_reset_and_hazards.md R316), and the terms
claims are stated in. -/

namespace Sys2Proof.Machine

/-- R31's range of `width`; `bpp`, `color_format` and `dram_addr` hold by their types. -/
def ImageFormat.legal (f : ImageFormat) : Bool := 1 ≤ f.width && f.width ≤ 1024

/-- `2^n - 1` for some `n` from 0 to 15 (R34, R35). -/
def legalMask (m : Nat) : Bool := (List.range 16).any fun n => m == 2 ^ n - 1

/-- R34 and R35: `pitch` and `tmem_addr` are multiples of 8 up to 4088, the masks have the form `2^n - 1`. -/
def TileFormat.legal (f : TileFormat) : Bool :=
  f.pitch % 8 == 0 && f.pitch ≤ 4088 && f.tmemAddr % 8 == 0 && f.tmemAddr ≤ 4088 && legalMask f.maskS &&
    legalMask f.maskT

/-- R40(c): between steps `cmdlen` is 0 or 1, and 1 only where a Texture Rectangle waits for its second word. -/
def State.bufferLegal (s : State) : Bool :=
  s.cmdlen == 0 || (s.cmdlen == 1 && opcodeOf s.word0 == 0x24#6)

/-- tmem's addresses are 0 to 4095 (R37). -/
def tmemInRange (m : List Host.Cell) : Bool := m.all fun c => c.1 < tmemBytes

/-- R50: what every reachable state satisfies, with the canonical form of both memories. -/
def State.legal (s : State) : Bool :=
  s.fb.legal && s.tex.legal && s.tiles.toList.all (fun t => t.format.legal) && s.bufferLegal &&
    Memory.wf s.sysMem && Memory.wf s.tmem && tmemInRange s.tmem

/-- A state reset may leave: any `RESET_STATE`, constrained only by legality, at a command boundary and with no
fault latched (R48, R300). -/
def State.isResetState (s : State) : Bool :=
  s.legal && s.cmdlen == 0 && s.faultLatch == ⟨false, false, false, false⟩

/-- The safety condition of a run: no fault was raised in it (R269). -/
def State.safe (s : State) : Bool := s.faultLatch == ⟨false, false, false, false⟩

/-- A run is complete when no command is half received (R316). -/
def State.runComplete (s : State) : Bool := s.cmdlen == 0

/-! ### Terms of the claims -/

/-- The state a one-word command starts from and ends in, but for its own effect: its word in `cmdbuf[0]`, the length
0, the step's outputs empty, the outcome `Ok` (R143, R148). -/
def State.taken (s : State) (w : Word) : State :=
  { s with cmdbuf := s.cmdbuf.set 0 w, cmdlen := 0, events := [], outcome := .ok }

/-- Whether an event is a request on RAST (R82 to R84). -/
def Event.isRaster : Event → Bool
  | .copyRect .. => true
  | .fillRect .. => true
  | .fillRectWithPipeline .. => true
  | .drawRectWithSlopes .. => true
  | .mem _ => false
  | .ppOtherModes _ => false
  | .ppCombine _ => false
  | .ppBlendColor _ => false
  | .fault _ => false
  | .unknownOpcode _ => false
  | .unknownFormat _ => false

/-- A function of the next state carried through an outcome. -/
def mapNext (f : State → State) : Host.Outcome State Fault Refusal → Host.Outcome State Fault Refusal
  | .next s => .next (f s)
  | .fault e => .fault e
  | .refused r => .refused r

/-- A tile with the fields no rule reads set to fixed values (R49). -/
def Tile.eraseUnread (t : Tile) : Tile :=
  { t with format := { t.format with
      palette := 0, clampS := false, clampT := false, mirrorS := false, mirrorT := false, maskS := 0, maskT := 0,
      shiftS := 0, shiftT := 0 } }

/-- A state with everything that no rule reads set to fixed values: `clip`, the tiles' unread fields (R49), and
`fault_latch` (R44). -/
def State.eraseUnread (s : State) : State :=
  { s with
    clip       := ⟨0, 0, 0, 0⟩
    tiles      := s.tiles.map Tile.eraseUnread
    faultLatch := ⟨false, false, false, false⟩ }

/-- What a register-setting command writes (R43). -/
inductive Slot where
  | clip | tex | fb | otherModes | tile (i : BitVec 3) | combine | blend | fillColor | nothing
deriving DecidableEq, Repr

/-- The slot of each of the nine register-setting commands (R43), none for the three others. -/
def setterSlot : Instr → Option Slot
  | .setScissor .. => some .clip
  | .setTextureImage .. => some .tex
  | .setColorImage .. => some .fb
  | .syncTile => some .nothing
  | .setOtherModes .. => some .otherModes
  | .setTile _ _ _ _ i _ _ _ _ _ _ _ _ _ => some (.tile i)
  | .setCombineMode _ => some .combine
  | .setBlendColor .. => some .blend
  | .setFillColor _ => some .fillColor
  | .loadTile .. => none
  | .textureRectangle .. => none
  | .fillRectangle .. => none

end Sys2Proof.Machine
end

