-- ==== Sys2Proof/Certificates/Slice0/Obligations.lean ====
section
/-! DEFINITION. The statements for the provers, in the order of OBLIGATIONS.json. -/

open Sys2Proof Sys2Proof.Machine

/-- Every field read is the word shifted right and reduced modulo a power of two. For every field of n bits standing at
bit lo of a word, the decoder's read of it is (w >> lo) mod 2^n, and ufield w hi lo is (w >> lo) mod 2^(hi-lo+1). -/
def Obligations.FieldReadIsShiftAndMask : Prop :=
  (∀ (n lo : Nat) (w : Word), (take w (⟨lo⟩ : BitField n)).toNat = w.toNat / 2 ^ lo % 2 ^ n) ∧
    ∀ (hi lo : Nat) (w : Word), ufield w hi lo = w.toNat / 2 ^ lo % 2 ^ (hi - lo + 1)

/-- A 16-bit texture coordinate field is read as two's complement: u, or u - 2^16 when its top bit is 1. For each field
of 16 bits at lo with lo + 16 <= 64, the operand assembled from it is sfield w (lo+15) lo, which is u - 2^16 when
bit lo+15 of the word is 1 and u otherwise; the result lies in -32768 to 32767. The four operands s, t, dsdx, dtdy
of a decoded Texture Rectangle are sfield of its second word at bits 63:48, 47:32, 31:16 and 15:0; those positions
are the spec's decision D2 (log 11). -/
def Obligations.SignedFieldsAreTwosComplement : Prop :=
  (∀ (lo : Nat) (w : Word), lo + 16 ≤ 64 →
    let u : Nat := w.toNat / 2 ^ lo % 2 ^ 16
    let v : Int := texCoord (take w (⟨lo⟩ : BitField 16))
    v = sfield w (lo + 15) lo ∧ (w.getLsbD (lo + 15) = true → v = (u : Int) - 2 ^ 16) ∧
      (w.getLsbD (lo + 15) = false → v = u) ∧ -32768 ≤ v ∧ v ≤ 32767) ∧
    ∀ (w0 w1 : Word), opcodeOf w0 = 0x24 → ∃ x1 y1 i x0 y0 s t dsdx dtdy,
      decodeWords w0 w1 = .ok (.textureRectangle x1 y1 i x0 y0 s t dsdx dtdy) ∧ texCoord s = sfield w1 63 48 ∧
      texCoord t = sfield w1 47 32 ∧ texCoord dsdx = sfield w1 31 16 ∧ texCoord dtdy = sfield w1 15 0

/-- Decoding an encoded well-formed instruction gives it back, for every instruction and every operand value. For every
instruction i that is well formed, decode (encode i) = ok i. The bit positions are the spec's decision D2 (log 11). -/
def Obligations.DecodeOfEncode : Prop :=
  ∀ i : Instr, i.wellFormed = true → decode (encode i) = .ok i

/-- Whatever the decoder answers is well formed and has the opcode of the first word. If the decoder reads instruction i
from words w0 and w1 then i is well formed, its opcode is bits 61:56 of w0, and encoding it again and decoding gives
i. -/
def Obligations.DecodedInstructionsAreWellFormed : Prop :=
  ∀ (w0 w1 : Word) (i : Instr), decodeWords w0 w1 = .ok i →
    i.wellFormed = true ∧ i.opcode.toNat = w0.toNat / 2 ^ 56 % 2 ^ 6 ∧ decode (encode i) = .ok i

/-- Of the 64 opcodes the decoder accepts the twelve of the map and rejects each other one by its number. decodeWords
answers an error exactly when bits 61:56 of the first word are none of the twelve opcodes, and the error then is
unknownOpcode with that opcode; a list of one word with opcode 0x24 is rejected as lacking its second word. -/
def Obligations.DecoderRejectsExactlyTheUnknownOpcodes : Prop :=
  (∀ (w0 w1 : Word) (r : DecodeReject), decodeWords w0 w1 = .error r ↔
      r = .unknownOpcode (opcodeOf w0) ∧ w0.toNat / 2 ^ 56 % 2 ^ 6 ∉
        [0x24, 0x28, 0x2D, 0x2F, 0x34, 0x35, 0x36, 0x37, 0x39, 0x3C, 0x3D, 0x3F]) ∧
    ∀ w0 : Word, w0.toNat / 2 ^ 56 % 2 ^ 6 = 0x24 → decode [w0] = .error .secondWordMissing

/-- Two first words that agree on the bits their command decodes decode to the same instruction. For each of the ten
commands that do not forward their raw word, and its mask of decoded bits, words that agree under the mask decode
alike; the second word matters for opcode 0x24 alone. The masks are the spec's layout (log 11). -/
def Obligations.IgnoredBitsDoNotMatter : Prop :=
  (∀ e ∈ ([(0x24, 0x3FFFFFFF07FFFFFF), (0x28, 0x3F00000000000000), (0x2D, 0x3FFFFFFF00FFFFFF),
        (0x34, 0x3FFFFFFF07FFFFFF), (0x35, 0x3FFBFFFF07FFFFFF), (0x36, 0x3FFFFFFF00FFFFFF),
        (0x37, 0x3F000000FFFFFFFF), (0x39, 0x3F000000FFFFFFFF), (0x3D, 0x3FF803FF03FFFFFF),
        (0x3F, 0x3FF803FF03FFFFFF)] : List (BitVec 6 × Word)),
      ∀ w v x : Word, opcodeOf w = e.1 → w &&& e.2 = v &&& e.2 → decodeWords w x = decodeWords v x) ∧
    ∀ w x y : Word, opcodeOf w ≠ 0x24 → decodeWords w x = decodeWords w y

/-- Words written out from the spec's encodings decode to the instructions they stand for. One word of each family
(image setter, tile setter, scissor, load, texture rectangle, fill rectangle), taken from the spec's vectors,
decodes to its instruction. -/
def Obligations.WrittenWordsDecode : Prop :=
  decodeWords 0x3F10013F00100000 0 = .ok (.setColorImage 0 2 0x13F 0x100000) ∧
    decodeWords 0x354828400355AE52 0 = .ok (.setTile 2 1 20 64 3 5 0 1 6 11 1 0 5 2) ∧
    decodeWords 0x2D00A00500005003 0 = .ok (.setScissor 10 5 5 3) ∧
    decodeWords 0x340080040001400C 0 = .ok (.loadTile 8 4 0 20 12) ∧
    decodeWords 0x2404805801028050 0x0000000004000400 =
      .ok (.textureRectangle 72 88 1 40 80 0 0 1024 1024) ∧
    decodeWords 0x3602C00800010004 0 = .ok (.fillRectangle 44 8 16 4) ∧
    decodeWords 0x39000000FF8040C0 0 = .ok (.setBlendColor 0xFF 0x80 0x40 0xC0)

/-- A step takes the next word, and once the word set is full it is exec of the decoded instruction with the length then
cleared. If w is the next word of CMD_IN, the buffer has room, and after w is appended (outputs empty, outcome Ok)
the command waits for no further word and the buffered words decode to i, then step is exec i at that state, with
cmdlen set to 0 in a next state and a fault or refusal passed on. CMD_IN as a queue is the model's own (log 3). -/
def Obligations.StepRunsTheDecodedInstruction : Prop :=
  ∀ (s u : State) (w : Word) (rest : List Word) (i : Instr) (h : s.cmdlen < 16),
    s.cmdIn = w :: rest →
    u = { s with cmdbuf := s.cmdbuf.set s.cmdlen w h, cmdlen := s.cmdlen + 1, cmdIn := rest, events := [],
                 outcome := .ok } →
    ¬ u.cmdlen < words (opcodeOf u.cmdbuf[0]) →
    decodeWords u.cmdbuf[0] u.cmdbuf[1] = .ok i →
    step s = match exec i u with
      | .next t => .next { t with cmdlen := 0 }
      | .fault e => .fault e
      | .refused r => .refused r

/-- Cites R145. The first word of a Texture Rectangle waits; the next word, whatever its bits, is its second word. At a
command boundary a word with opcode 0x24 leaves only itself in cmdbuf[0] and cmdlen 1, with no event and outcome Ok;
and while it waits, any next word w completes the command: submit w is the Texture Rectangle decoded from cmdbuf[0]
and w, with the length then cleared. -/
def Obligations.TextureRectangleWaitsForItsSecondWord : Prop :=
  (∀ (s : State) (w : Word), s.cmdlen = 0 → opcodeOf w = 0x24 →
      submit w s = .next { s with cmdbuf := s.cmdbuf.set 0 w, cmdlen := 1, events := [],
                                  outcome := .ok }) ∧
    (∀ (s : State) (w : Word), s.cmdlen = 1 → opcodeOf s.cmdbuf[0] = 0x24 →
      submit w s = mapNext (fun t => { t with cmdlen := 0 })
        (exec (decodeTextureRectangle s.cmdbuf[0] w)
          { s with cmdbuf := s.cmdbuf.set 1 w, cmdlen := 2, events := [], outcome := .ok })) ∧
    ∀ (s t : State) (w : Word), s.cmdlen = 0 → opcodeOf w ≠ 0x24 → submit w s = .next t → t.cmdlen = 0

/-- Cites R147. An unknown opcode emits its diagnostic, changes nothing else, and clears the length. At a command
boundary a word whose opcode is none of the twelve leaves every register, tile, tmem byte, system-memory byte and pp
field as it was; the only event is DIAG UnknownOpcode(op), the outcome is Ok and cmdlen is 0. -/
def Obligations.UnknownOpcodeIsDropped : Prop :=
  ∀ (s : State) (w : Word), s.cmdlen = 0 →
    w.toNat / 2 ^ 56 % 2 ^ 6 ∉ [0x24, 0x28, 0x2D, 0x2F, 0x34, 0x35, 0x36, 0x37, 0x39, 0x3C, 0x3D, 0x3F] →
    submit w s = .next { s with cmdbuf := s.cmdbuf.set 0 w, cmdlen := 0, outcome := .ok,
                                events := [.unknownOpcode (opcodeOf w)] }

/-- After a step the length is 0, but for a Texture Rectangle's first word, after which it is 1. From a state at a
boundary or with a Texture Rectangle pending, if submit answers a next state then its cmdlen is 0, a fault included,
except that a word with opcode 0x24 taken at a boundary leaves cmdlen 1. -/
def Obligations.EveryCompletedCommandClearsTheLength : Prop :=
  ∀ (s t : State) (w : Word), s.bufferLegal = true → submit w s = .next t →
    t.cmdlen = if s.cmdlen = 0 ∧ opcodeOf w = 0x24 then 1 else 0

/-- With no word waiting the block is idle and keeps all its state (the model's choice, log 3). If CMD_IN is empty, step
answers the same state. -/
def Obligations.IdleStepKeepsAllState : Prop :=
  ∀ s : State, s.cmdIn = [] → step s = .next s

/-- Set Scissor stores its four zero-extended coordinates in clip and changes nothing else. exec of Set Scissor answers
the state with clip replaced by the four 12-bit operands zero-extended; a word with opcode 0x2D at a boundary stores
bits 55:44, 43:32, 23:12 and 11:0, without an order check. Zero extension is the spec's decision D4, the positions
D2 (log 11, log 19). -/
def Obligations.SetScissorReplacesClip : Prop :=
  (∀ (x0 y0 x1 y1 : BitVec 12) (s : State), ∃ t, exec (.setScissor x0 y0 x1 y1) s = .next t ∧
      t = { s with clip := t.clip } ∧ t.clip.x0.toNat = x0.toNat ∧ t.clip.y0.toNat = y0.toNat ∧
      t.clip.x1.toNat = x1.toNat ∧ t.clip.y1.toNat = y1.toNat) ∧
    (∀ (w : Word) (s : State), s.cmdlen = 0 → opcodeOf w = 0x2D → ∃ t, submit w s = .next t ∧
      t = { s.taken w with clip := t.clip } ∧ t.clip.x0.toNat = w.toNat / 2 ^ 44 % 2 ^ 12 ∧
      t.clip.y0.toNat = w.toNat / 2 ^ 32 % 2 ^ 12 ∧ t.clip.x1.toNat = w.toNat / 2 ^ 12 % 2 ^ 12 ∧
      t.clip.y1.toNat = w.toNat % 2 ^ 12)

/-- Set Texture Image replaces tex wholesale and changes nothing else. exec of the command answers the state with tex
replaced: bpp is 4 << size, width is the field + 1, dram_addr the 26-bit field, the colour format that of codes 0 to
4 and RGBA for 5 to 7 with a diagnostic, the one event; a word with opcode 0x3D at a boundary takes the fields from
bits 55:53, 52:51, 41:32 and 25:0 and emits that diagnostic alone, or nothing (the spec's decisions D2 and D3, log
11, log 12). -/
def Obligations.SetTextureImageReplacesTex : Prop :=
  (∀ (fmt : BitVec 3) (size : BitVec 2) (width : BitVec 10) (addr : BitVec 26) (s : State), ∃ t,
      exec (.setTextureImage fmt size width addr) s = .next t ∧ t = { s with tex := t.tex, events := t.events } ∧
      bppBits t.tex.bpp = 4 <<< size.toNat ∧ t.tex.width = width.toNat + 1 ∧ t.tex.dramAddr = addr ∧
      [ColorFormat.rgba, .yuv, .ci, .ia, .i, .rgba, .rgba, .rgba][fmt.toNat]? = some t.tex.colorFormat ∧
      t.events = s.events ++ (if 5 ≤ fmt.toNat then [.unknownFormat fmt] else [])) ∧
    (∀ (w : Word) (s : State), s.cmdlen = 0 → opcodeOf w = 0x3D → ∃ t, submit w s = .next t ∧
      t = { s.taken w with
        tex := t.tex
        events := if 5 ≤ w.toNat / 2 ^ 53 % 2 ^ 3 then [.unknownFormat (BitVec.ofNat 3 (w.toNat / 2 ^ 53 % 2 ^ 3))] else [] } ∧
      bppBits t.tex.bpp = 4 <<< (w.toNat / 2 ^ 51 % 2 ^ 2) ∧ t.tex.width = w.toNat / 2 ^ 32 % 2 ^ 10 + 1 ∧
      t.tex.dramAddr.toNat = w.toNat % 2 ^ 26 ∧
      [ColorFormat.rgba, .yuv, .ci, .ia, .i, .rgba, .rgba, .rgba][w.toNat / 2 ^ 53 % 2 ^ 3]? = some t.tex.colorFormat)

/-- Set Color Image replaces fb wholesale and changes nothing else. exec of the command answers the state with fb
replaced: bpp is 4 << size, width is the field + 1, dram_addr the 26-bit field, the colour format that of codes 0 to
4 and RGBA for 5 to 7 with a diagnostic, the one event; a word with opcode 0x3F at a boundary takes the fields from
bits 55:53, 52:51, 41:32 and 25:0 and emits that diagnostic alone, or nothing (the spec's decisions D2 and D3, log
11, log 12). -/
def Obligations.SetColorImageReplacesFb : Prop :=
  (∀ (fmt : BitVec 3) (size : BitVec 2) (width : BitVec 10) (addr : BitVec 26) (s : State), ∃ t,
      exec (.setColorImage fmt size width addr) s = .next t ∧ t = { s with fb := t.fb, events := t.events } ∧
      bppBits t.fb.bpp = 4 <<< size.toNat ∧ t.fb.width = width.toNat + 1 ∧ t.fb.dramAddr = addr ∧
      [ColorFormat.rgba, .yuv, .ci, .ia, .i, .rgba, .rgba, .rgba][fmt.toNat]? = some t.fb.colorFormat ∧
      t.events = s.events ++ (if 5 ≤ fmt.toNat then [.unknownFormat fmt] else [])) ∧
    (∀ (w : Word) (s : State), s.cmdlen = 0 → opcodeOf w = 0x3F → ∃ t, submit w s = .next t ∧
      t = { s.taken w with
        fb := t.fb
        events := if 5 ≤ w.toNat / 2 ^ 53 % 2 ^ 3 then [.unknownFormat (BitVec.ofNat 3 (w.toNat / 2 ^ 53 % 2 ^ 3))] else [] } ∧
      bppBits t.fb.bpp = 4 <<< (w.toNat / 2 ^ 51 % 2 ^ 2) ∧ t.fb.width = w.toNat / 2 ^ 32 % 2 ^ 10 + 1 ∧
      t.fb.dramAddr.toNat = w.toNat % 2 ^ 26 ∧
      [ColorFormat.rgba, .yuv, .ci, .ia, .i, .rgba, .rgba, .rgba][w.toNat / 2 ^ 53 % 2 ^ 3]? = some t.fb.colorFormat)

/-- Cites R163. Sync Tile changes nothing and emits nothing. exec of Sync Tile answers the same state; a word with
opcode 0x28 at a boundary, whatever its other bits, changes nothing beside the assembler's own cmdbuf[0] and cmdlen,
and emits no event. -/
def Obligations.SyncTileDoesNothing : Prop :=
  (∀ s : State, exec .syncTile s = .next s) ∧
    ∀ (w : Word) (s : State), s.cmdlen = 0 → opcodeOf w = 0x28 → submit w s = .next (s.taken w) ∧
      (s.taken w).events = [] ∧ (s.taken w).outcome = .ok

/-- Set Other Modes replaces cycle_mode by its coding and forwards the whole raw word. exec of Set Other Modes answers
the state with cycle_mode One, Two, Copy or Fill for codes 0 to 3, pp.other_modes the raw word and one event
PP_OtherModes with it; a word with opcode 0x2F at a boundary takes the code from bits 53:52 (decision D2, log 11)
and forwards itself, all 64 bits. -/
def Obligations.SetOtherModesSetsCycleModeAndForwards : Prop :=
  (∀ (cycle : BitVec 2) (raw : Word) (s : State), ∃ m, exec (.setOtherModes cycle raw) s = .next
      { s with cycleMode := m, pp := { s.pp with otherModes := raw }, events := s.events ++ [.ppOtherModes raw] } ∧
      [CycleMode.one, .two, .copy, .fill][cycle.toNat]? = some m) ∧
    (∀ (w : Word) (s : State), s.cmdlen = 0 → opcodeOf w = 0x2F → ∃ m, submit w s = .next
      { s.taken w with cycleMode := m, pp := { s.pp with otherModes := w }, events := [.ppOtherModes w] } ∧
      [CycleMode.one, .two, .copy, .fill][w.toNat / 2 ^ 52 % 2 ^ 2]? = some m)

/-- Set Tile replaces the format fields of the indexed tile and keeps its rect and every other tile. exec of Set Tile
answers a state that differs only in tiles and in a diagnostic for codes 5 to 7; tile i gets bpp 4 << size, pitch
line * 8, tmem_addr tmem * 8, palette, flags, masks 2^n - 1 and raw shifts, and keeps rect; every other tile is
unchanged. A word with opcode 0x35 at a boundary acts on tile bits 26:24 with the format code of bits 55:53 and its
diagnostic, the size of 52:51, line of 49:41, tmem of 40:32, palette of 23:20, clamp, mirror, mask and shift of T at
19, 18, 17:14, 13:10 and of S at 9, 8, 7:4, 3:0 (decisions D2, D3, D5 and D6, log 11, log 12, log 19). -/
def Obligations.SetTileReplacesFormatFields : Prop :=
  (∀ (fmt : BitVec 3) (size : BitVec 2) (line tmem : BitVec 9) (i : BitVec 3) (palette : BitVec 4)
      (clampT mirrorT : BitVec 1) (maskT shiftT : BitVec 4) (clampS mirrorS : BitVec 1) (maskS shiftS : BitVec 4)
      (s : State), ∃ t,
      exec (.setTile fmt size line tmem i palette clampT mirrorT maskT shiftT clampS mirrorS maskS shiftS) s = .next t ∧
      t = { s with tiles := t.tiles, events := s.events ++ (if 5 ≤ fmt.toNat then [.unknownFormat fmt] else []) } ∧
      (∀ j, j ≠ i → t.tile j = s.tile j) ∧ (t.tile i).rect = (s.tile i).rect ∧
      [ColorFormat.rgba, .yuv, .ci, .ia, .i, .rgba, .rgba, .rgba][fmt.toNat]? = some (t.tile i).format.colorFormat ∧
      bppBits (t.tile i).format.bpp = 4 <<< size.toNat ∧ (t.tile i).format.pitch = line.toNat * 8 ∧
      (t.tile i).format.tmemAddr = tmem.toNat * 8 ∧ (t.tile i).format.palette = palette ∧
      ((t.tile i).format.clampS = true ↔ clampS = 1#1) ∧ ((t.tile i).format.clampT = true ↔ clampT = 1#1) ∧
      ((t.tile i).format.mirrorS = true ↔ mirrorS = 1#1) ∧ ((t.tile i).format.mirrorT = true ↔ mirrorT = 1#1) ∧
      (t.tile i).format.maskS = 2 ^ maskS.toNat - 1 ∧ (t.tile i).format.maskT = 2 ^ maskT.toNat - 1 ∧
      (t.tile i).format.shiftS = shiftS ∧ (t.tile i).format.shiftT = shiftT) ∧
    (∀ (w : Word) (s : State) (i : BitVec 3), s.cmdlen = 0 → opcodeOf w = 0x35 → i.toNat = w.toNat / 2 ^ 24 % 2 ^ 3 →
      ∃ t, submit w s = .next t ∧
      t = { s.taken w with
        tiles := t.tiles
        events := if 5 ≤ w.toNat / 2 ^ 53 % 2 ^ 3 then [.unknownFormat (BitVec.ofNat 3 (w.toNat / 2 ^ 53 % 2 ^ 3))] else [] } ∧
      (∀ j, j ≠ i → t.tile j = s.tile j) ∧ (t.tile i).rect = (s.tile i).rect ∧
      [ColorFormat.rgba, .yuv, .ci, .ia, .i, .rgba, .rgba, .rgba][w.toNat / 2 ^ 53 % 2 ^ 3]? =
        some (t.tile i).format.colorFormat ∧
      bppBits (t.tile i).format.bpp = 4 <<< (w.toNat / 2 ^ 51 % 2 ^ 2) ∧
      (t.tile i).format.pitch = w.toNat / 2 ^ 41 % 2 ^ 9 * 8 ∧ (t.tile i).format.tmemAddr = w.toNat / 2 ^ 32 % 2 ^ 9 * 8 ∧
      (t.tile i).format.palette.toNat = w.toNat / 2 ^ 20 % 2 ^ 4 ∧
      ((t.tile i).format.clampT = true ↔ w.toNat / 2 ^ 19 % 2 = 1) ∧
      ((t.tile i).format.mirrorT = true ↔ w.toNat / 2 ^ 18 % 2 = 1) ∧
      (t.tile i).format.maskT = 2 ^ (w.toNat / 2 ^ 14 % 2 ^ 4) - 1 ∧
      (t.tile i).format.shiftT.toNat = w.toNat / 2 ^ 10 % 2 ^ 4 ∧
      ((t.tile i).format.clampS = true ↔ w.toNat / 2 ^ 9 % 2 = 1) ∧
      ((t.tile i).format.mirrorS = true ↔ w.toNat / 2 ^ 8 % 2 = 1) ∧
      (t.tile i).format.maskS = 2 ^ (w.toNat / 2 ^ 4 % 2 ^ 4) - 1 ∧
      (t.tile i).format.shiftS.toNat = w.toNat % 2 ^ 4)

/-- Set Combine Mode forwards its whole word and mirrors it in pp.combine. exec of Set Combine Mode answers the state
with pp.combine the raw word and one event PP_Combine with it; a word with opcode 0x3C at a boundary forwards
itself, its opcode bits and bits 63:62 included. The mirror pp is the spec's decision D25. -/
def Obligations.SetCombineModeForwardsItsWord : Prop :=
  (∀ (raw : Word) (s : State), exec (.setCombineMode raw) s = .next
      { s with pp := { s.pp with combine := raw }, events := s.events ++ [.ppCombine raw] }) ∧
    (∀ (w : Word) (s : State), s.cmdlen = 0 → opcodeOf w = 0x3C → submit w s = .next
      { s.taken w with pp := { s.pp with combine := w }, events := [.ppCombine w] })

/-- Set Blend Color forwards its four bytes as named channels, in the order CHANNEL_NAME_ORDER gives. exec of Set Blend
Color with bytes b3, b2, b1, b0 (bits 31:24 down) answers the state with pp.blend and one event PP_BlendColor
holding r, g, b, a = b3, b2, b1, b0 under lsb_first and the mirror image under msb_first; a word with opcode 0x39 at
a boundary takes the bytes of bits 31:0 in either order (decisions D2 and D7, log 11, log 13). -/
def Obligations.SetBlendColorForwardsFourChannels : Prop :=
  (∀ (b3 b2 b1 b0 : Byte) (s : State), ∃ c : Rgba, exec (.setBlendColor b3 b2 b1 b0) s = .next
      { s with pp := { s.pp with blend := c }, events := s.events ++ [.ppBlendColor c] } ∧
      (s.params.channelNameOrder = .lsbFirst → c = ⟨b3, b2, b1, b0⟩) ∧
      (s.params.channelNameOrder = .msbFirst → c = ⟨b0, b1, b2, b3⟩)) ∧
    (∀ (w : Word) (s : State), s.cmdlen = 0 → opcodeOf w = 0x39 → ∃ c : Rgba, submit w s = .next
      { s.taken w with pp := { s.pp with blend := c }, events := [.ppBlendColor c] } ∧
      (s.params.channelNameOrder = .lsbFirst → c.r.toNat = w.toNat / 2 ^ 24 % 2 ^ 8 ∧
        c.g.toNat = w.toNat / 2 ^ 16 % 2 ^ 8 ∧ c.b.toNat = w.toNat / 2 ^ 8 % 2 ^ 8 ∧ c.a.toNat = w.toNat % 2 ^ 8) ∧
      (s.params.channelNameOrder = .msbFirst → c.a.toNat = w.toNat / 2 ^ 24 % 2 ^ 8 ∧
        c.b.toNat = w.toNat / 2 ^ 16 % 2 ^ 8 ∧ c.g.toNat = w.toNat / 2 ^ 8 % 2 ^ 8 ∧ c.r.toNat = w.toNat % 2 ^ 8))

/-- Set Fill Color stores the raw 32-bit value and changes nothing else. exec of Set Fill Color answers the state with
fill_color replaced; a word with opcode 0x37 at a boundary stores bits 31:0, the other bits ignored (decision D2,
log 11). -/
def Obligations.SetFillColorStoresTheRawValue : Prop :=
  (∀ (color : BitVec 32) (s : State), exec (.setFillColor color) s = .next { s with fillColor := color }) ∧
    (∀ (w : Word) (s : State), s.cmdlen = 0 → opcodeOf w = 0x37 → ∃ t, submit w s = .next t ∧
      t = { s.taken w with fillColor := t.fillColor } ∧ t.fillColor.toNat = w.toNat % 2 ^ 32)

/-- An unknown colour-format code, 5 to 7, is logged and the command proceeds exactly as with code 0. For codes 5 to 7,
which are unknown by the spec's decision D3 (log 12), Set Texture Image, Set Color Image and Set Tile each answer
the next state they answer for code 0, with one further event DIAG UnknownFormat(code). -/
def Obligations.UnknownFormatCodeActsAsCodeZero : Prop :=
  ∀ (fmt : BitVec 3) (size : BitVec 2) (s : State), 5 ≤ fmt.toNat →
    (∀ (width : BitVec 10) (addr : BitVec 26), ∃ t, exec (.setTextureImage 0 size width addr) s = .next t ∧
      exec (.setTextureImage fmt size width addr) s = .next { t with events := t.events ++ [.unknownFormat fmt] }) ∧
    (∀ (width : BitVec 10) (addr : BitVec 26), ∃ t, exec (.setColorImage 0 size width addr) s = .next t ∧
      exec (.setColorImage fmt size width addr) s = .next { t with events := t.events ++ [.unknownFormat fmt] }) ∧
    ∀ (line tmem : BitVec 9) (i : BitVec 3) (pal : BitVec 4) (ct mt : BitVec 1) (kt ht : BitVec 4) (cs ms : BitVec 1)
      (ks hs : BitVec 4), ∃ t, exec (.setTile 0 size line tmem i pal ct mt kt ht cs ms ks hs) s = .next t ∧
      exec (.setTile fmt size line tmem i pal ct mt kt ht cs ms ks hs) s =
        .next { t with events := t.events ++ [.unknownFormat fmt] }

/-- Each register-setting command run twice leaves the state the first run left, its events emitted twice. For each of
the nine register-setting commands i and every state s there is a next state t of i at s, and i at t answers t again
but for its events, which are those of the first run followed by the same events once more. -/
def Obligations.SettersAreIdempotent : Prop :=
  ∀ (i : Instr) (s : State), setterSlot i ≠ none → ∃ t es, exec i s = .next t ∧ t.events = s.events ++ es ∧
    exec i t = .next { t with events := t.events ++ es }

/-- Two register-setting commands that write different state commute, but for the order of their events. If two of the
nine commands have different slots of the write-set table, then running them in either order answers next states
that are equal in every field but events. -/
def Obligations.SettersOfDisjointStateCommute : Prop :=
  ∀ (i j : Instr) (s : State) (a b : Slot), setterSlot i = some a → setterSlot j = some b → a ≠ b →
    ∃ t u t' u', exec i s = .next t ∧ exec j t = .next u ∧ exec j s = .next t' ∧ exec i t' = .next u' ∧
      u' = { u with events := u'.events }

/-- Set Tile replaces a tile's format fields and keeps rect; Load Tile replaces only rect; no other command writes a
tile. Whatever next state a command answers, a fault included: a command other than Set Tile leaves every tile's
format fields; a command other than Load Tile leaves every tile's rect; Set Tile and Load Tile write no tile but the
one their index names; after Set Tile the indexed tile's format fields are the command's own: the format of its code
(RGBA for 5 to 7), bpp 4 << size, pitch line * 8, tmem_addr tmem * 8, palette, flags, masks 2^n - 1 and raw shifts
(decisions D3, D5, D6, log 12, log 19); after Load Tile the indexed rect is the command's four zero-extended
coordinates, each at most 4095. -/
def Obligations.TileWriteDiscipline : Prop :=
  ∀ (i : Instr) (s t : State), exec i s = .next t →
    ((∀ a b c d e f g h k l m n p q, i ≠ .setTile a b c d e f g h k l m n p q) →
      ∀ j, (t.tile j).format = (s.tile j).format) ∧
    ((∀ a b c d e, i ≠ .loadTile a b c d e) → ∀ j, (t.tile j).rect = (s.tile j).rect) ∧
    (∀ fmt size line tmem e palette clampT mirrorT maskT shiftT clampS mirrorS maskS shiftS,
      i = .setTile fmt size line tmem e palette clampT mirrorT maskT shiftT clampS mirrorS maskS shiftS →
      (∀ j, j ≠ e → t.tile j = s.tile j) ∧
      [ColorFormat.rgba, .yuv, .ci, .ia, .i, .rgba, .rgba, .rgba][fmt.toNat]? = some (t.tile e).format.colorFormat ∧
      bppBits (t.tile e).format.bpp = 4 <<< size.toNat ∧ (t.tile e).format.pitch = line.toNat * 8 ∧
      (t.tile e).format.tmemAddr = tmem.toNat * 8 ∧ (t.tile e).format.palette = palette ∧
      ((t.tile e).format.clampS = true ↔ clampS = 1#1) ∧ ((t.tile e).format.clampT = true ↔ clampT = 1#1) ∧
      ((t.tile e).format.mirrorS = true ↔ mirrorS = 1#1) ∧ ((t.tile e).format.mirrorT = true ↔ mirrorT = 1#1) ∧
      (t.tile e).format.maskS = 2 ^ maskS.toNat - 1 ∧ (t.tile e).format.maskT = 2 ^ maskT.toNat - 1 ∧
      (t.tile e).format.shiftS = shiftS ∧ (t.tile e).format.shiftT = shiftT) ∧
    ∀ s0 t0 e s1 t1, i = .loadTile s0 t0 e s1 t1 → (∀ j, j ≠ e → t.tile j = s.tile j) ∧
      (t.tile e).rect.s0.toNat = s0.toNat ∧ (t.tile e).rect.t0.toNat = t0.toNat ∧
      (t.tile e).rect.s1.toNat = s1.toNat ∧ (t.tile e).rect.t1.toNat = t1.toNat ∧
      (t.tile e).rect.s0.toNat ≤ 4095 ∧ (t.tile e).rect.t0.toNat ≤ 4095 ∧ (t.tile e).rect.s1.toNat ≤ 4095 ∧
      (t.tile e).rect.t1.toNat ≤ 4095

/-- Load Tile with unequal bpp, or bpp 4 or 32, raises F_LOADTILE_BPP and moves no byte. For a rectangle that is not
inverted, if tiles[i].bpp differs from tex.bpp, or tex.bpp is 4 or 32, whatever the colour formats, Load Tile raises
F_LOADTILE_BPP with (i, tiles[i].bpp, tex.bpp): its rect is stored, no tmem byte is written, no view of system
memory is obtained. Where the bpp are equal and 8 or 16, no next state has raised that fault: its latch flag is as
before and no FAULT event of that kind is appended. Fault entry as a next state is the model's form of it (log 1). -/
def Obligations.LoadTileFaultsOnItsFormatCheck : Prop :=
  ∀ (s0 t0 s1 t1 : BitVec 12) (i : BitVec 3) (s : State), s0.toNat ≤ s1.toNat → t0.toNat ≤ t1.toNat →
    (((s.tile i).format.bpp ≠ s.tex.bpp ∨ s.tex.bpp = .b4 ∨ s.tex.bpp = .b32) →
    ∃ t, exec (.loadTile s0 t0 i s1 t1) s = .next t ∧
      t = { s.setTileRect i ⟨s0.setWidth 32, t0.setWidth 32, s1.setWidth 32, t1.setWidth 32⟩ with
            events := s.events ++ [.fault (.loadTileBpp i (s.tile i).format.bpp s.tex.bpp)]
            faultLatch := { s.faultLatch with loadTileBpp := true }
            outcome := .fault .loadTileBpp } ∧
      t.tmem = s.tmem ∧ t.sysMem = s.sysMem ∧ t.memViews = s.memViews) ∧
    ((s.tile i).format.bpp = s.tex.bpp → s.tex.bpp = .b8 ∨ s.tex.bpp = .b16 →
      ∀ t, exec (.loadTile s0 t0 i s1 t1) s = .next t → t.faultLatch.loadTileBpp = s.faultLatch.loadTileBpp ∧
        ∃ es, t.events = s.events ++ es ∧ ∀ j x y, Event.fault (.loadTileBpp j x y) ∉ es)

/-- Load Tile copies min(width, tex.width) by height texels into tmem verbatim, a later row overwriting an earlier one.
With a rectangle that is not inverted, equal bpp of 8 or 16, a copy that ends at or below tmem byte 4095, and every
source byte resolving, Load Tile answers a next state that differs only in rect, tmem, its read view on MEM and then
its one request (the order is D21, log 4); byte k of row j of the copy holds the source byte wherever no later row
covers its address, and every tmem byte in no row reads as before. The source origin is the parameter
LOADTILE_SRC_ORIGIN, either value (log 6). -/
def Obligations.LoadTileCopiesTexels : Prop :=
  ∀ (s0 t0 s1 t1 : BitVec 12) (i : BitVec 3) (s : State) (B width height cw S0 T0 P p d : Nat),
    s0.toNat ≤ s1.toNat → t0.toNat ≤ t1.toNat → (s.tile i).format.bpp = s.tex.bpp →
    (s.tex.bpp = .b8 ∧ B = 1 ∨ s.tex.bpp = .b16 ∧ B = 2) →
    width = (s1.toNat - s0.toNat) / 4 + 1 → height = (t1.toNat - t0.toNat) / 4 + 1 → cw = min width s.tex.width →
    (s.params.loadTileSrcOrigin = .rectOrigin ∧ S0 = s0.toNat / 4 ∧ T0 = t0.toNat / 4 ∨
      s.params.loadTileSrcOrigin = .zero ∧ S0 = 0 ∧ T0 = 0) →
    P = s.tex.width * (8 * B) / 8 → p = (s.tile i).format.pitch → d = (s.tile i).format.tmemAddr →
    d + (height - 1) * p + cw * B ≤ 4096 →
    (∀ j < height, ∀ k < cw * B,
      resolves s.params.memMap (s.tex.dramAddr.toNat + (T0 + j) * P + S0 * B + k) = true) →
    ∃ t, exec (.loadTile s0 t0 i s1 t1) s = .next t ∧
      t = { s.setTileRect i ⟨s0.setWidth 32, t0.setWidth 32, s1.setWidth 32, t1.setWidth 32⟩ with
            tmem := t.tmem
            events := s.events ++ [.mem (.read s.tex.dramAddr.toNat), .copyRect
              ⟨.tmem, d, width, height, p, (s.tile i).format.colorFormat, s.tex.bpp, s.params.loadTileOrder⟩ cw height
              ⟨.sys, s.tex.dramAddr.toNat, cw, height, P, s.tex.colorFormat, s.tex.bpp, s.params.loadTileOrder⟩
              ⟨s0.setWidth 32, t0.setWidth 32, s1.setWidth 32, t1.setWidth 32⟩] } ∧
      (∀ j k, j < height → k < cw * B → (∀ j', j < j' → j' < height → d + j * p + k < d + j' * p) →
        readByte t.tmem (d + j * p + k) = readByte s.sysMem (s.tex.dramAddr.toNat + (T0 + j) * P + S0 * B + k)) ∧
      ∀ a, (∀ j < height, a < d + j * p ∨ d + j * p + cw * B ≤ a) → readByte t.tmem a = readByte s.tmem a

/-- Load Tile refuses an inverted rectangle before anything, and a copy past tmem byte 4095 after the format check. Load
Tile with s1 < s0 or t1 < t0 is refused as InvertedRect whatever the bpp; with equal bpp of 8 or 16 and a last byte
above 4095 it is refused as TmemRange (the spec's decisions D11 and D12, log 2). -/
def Obligations.LoadTileRefusals : Prop :=
  ∀ (s0 t0 s1 t1 : BitVec 12) (i : BitVec 3) (s : State),
    ((s1.toNat < s0.toNat ∨ t1.toNat < t0.toNat) →
      exec (.loadTile s0 t0 i s1 t1) s = .refused .invertedRect) ∧
    ∀ B : Nat, s0.toNat ≤ s1.toNat → t0.toNat ≤ t1.toNat → (s.tile i).format.bpp = s.tex.bpp →
      (s.tex.bpp = .b8 ∧ B = 1 ∨ s.tex.bpp = .b16 ∧ B = 2) →
      4096 < (s.tile i).format.tmemAddr + (t1.toNat - t0.toNat) / 4 * (s.tile i).format.pitch +
        min ((s1.toNat - s0.toNat) / 4 + 1) s.tex.width * B →
      exec (.loadTile s0 t0 i s1 t1) s = .refused .tmemRange

/-- Load Tile with an unresolved source byte raises F_MEM with the lowest such address and writes no tmem byte. When the
earlier tests pass and some source byte address does not resolve, Load Tile raises F_MEM with the lowest of them;
rect is stored and tmem is as before. -/
def Obligations.LoadTileUnresolvedSourceFaults : Prop :=
  ∀ (s0 t0 s1 t1 : BitVec 12) (i : BitVec 3) (s : State) (B cw S0 T0 P a : Nat) (addr : Nat → Nat → Nat),
    s0.toNat ≤ s1.toNat → t0.toNat ≤ t1.toNat → (s.tile i).format.bpp = s.tex.bpp →
    (s.tex.bpp = .b8 ∧ B = 1 ∨ s.tex.bpp = .b16 ∧ B = 2) →
    cw = min ((s1.toNat - s0.toNat) / 4 + 1) s.tex.width →
    (s.params.loadTileSrcOrigin = .rectOrigin ∧ S0 = s0.toNat / 4 ∧ T0 = t0.toNat / 4 ∨
      s.params.loadTileSrcOrigin = .zero ∧ S0 = 0 ∧ T0 = 0) →
    P = s.tex.width * (8 * B) / 8 →
    (s.tile i).format.tmemAddr + (t1.toNat - t0.toNat) / 4 * (s.tile i).format.pitch + cw * B ≤ 4096 →
    (∀ j k, addr j k = s.tex.dramAddr.toNat + (T0 + j) * P + S0 * B + k) →
    (∃ j ≤ (t1.toNat - t0.toNat) / 4, ∃ k < cw * B, a = addr j k) → resolves s.params.memMap a = false →
    (∀ j ≤ (t1.toNat - t0.toNat) / 4, ∀ k < cw * B, resolves s.params.memMap (addr j k) = false → a ≤ addr j k) →
    exec (.loadTile s0 t0 i s1 t1) s = .next
      { s.setTileRect i ⟨s0.setWidth 32, t0.setWidth 32, s1.setWidth 32, t1.setWidth 32⟩ with
        events := s.events ++ [.fault (.mem a)]
        faultLatch := { s.faultLatch with mem := true }
        outcome := .fault .mem }

/-- Texture Rectangle issues one draw request over the 320 by 240 view and changes no byte outside its footprint. With a
destination no narrower and no lower than TEXRECT_DEC, a tile rectangle that is not inverted, a source view ending
at or below tmem byte 4095, and every byte of the destination footprint resolving, Texture Rectangle answers a next
state that differs only in system memory, its write view on MEM and then its one request (that no read view is
obtained beside it is the model's choice, log 21; the order is D21, log 4); the request's views, rectangle and sign-
extended coordinates are as the spec gives them, and every byte outside the destination footprint reads as before.
What is drawn inside is a free value (log 9). -/
def Obligations.TextureRectangleIssuesOneRequest : Prop :=
  ∀ (x1 y1 : BitVec 12) (i : BitVec 3) (x0 y0 : BitVec 12) (sc tc dsdx dtdy : BitVec 16) (s : State)
      (dec sw sh srcLen P dstLen : Nat),
    (s.params.texRectDec = .ulp ∧ dec = 1 ∨ s.params.texRectDec = .one ∧ dec = 4) →
    x0.toNat + dec ≤ x1.toNat → y0.toNat + dec ≤ y1.toNat →
    (s.tile i).rect.s0.toNat ≤ (s.tile i).rect.s1.toNat → (s.tile i).rect.t0.toNat ≤ (s.tile i).rect.t1.toNat →
    sw = ((s.tile i).rect.s1.toNat - (s.tile i).rect.s0.toNat) / 4 + 1 →
    sh = ((s.tile i).rect.t1.toNat - (s.tile i).rect.t0.toNat) / 4 + 1 →
    srcLen = (sh - 1) * (s.tile i).format.pitch + (sw * bppBits (s.tile i).format.bpp + 7) / 8 →
    (s.tile i).format.tmemAddr + srcLen ≤ 4096 →
    P = s.fb.width * bppBits s.fb.bpp / 8 → dstLen = 239 * P + 320 * bppBits s.fb.bpp / 8 →
    (∀ k < dstLen, resolves s.params.memMap (s.fb.dramAddr.toNat + k) = true) →
    ∃ t, exec (.textureRectangle x1 y1 i x0 y0 sc tc dsdx dtdy) s = .next t ∧
      t = { s with
            sysMem := t.sysMem
            events := s.events ++ [.mem (.write s.fb.dramAddr.toNat), .drawRectWithSlopes
              ⟨.sys, s.fb.dramAddr.toNat, 320, 240, P, s.fb.colorFormat, s.fb.bpp, s.params.texRectDstOrder⟩
              ⟨x0.toNat, y0.toNat, x1.toNat - dec, y1.toNat - dec⟩
              ⟨.tmem, (s.tile i).format.tmemAddr, sw, sh, (s.tile i).format.pitch, (s.tile i).format.colorFormat,
                (s.tile i).format.bpp, s.params.texRectSrcOrder⟩ ⟨sc.toInt, tc.toInt⟩ ⟨dsdx.toInt, dtdy.toInt⟩] } ∧
      ∀ a, (a < s.fb.dramAddr.toNat ∨ s.fb.dramAddr.toNat + dstLen ≤ a) → readByte t.sysMem a = readByte s.sysMem a

/-- Texture Rectangle refuses, in this order, a degenerate destination, an inverted tile rectangle, a source past tmem.
A destination narrower or lower than TEXRECT_DEC is refused as DegenerateRect; otherwise a tile whose rect is
inverted is refused as InvertedRect; otherwise a source view that passes tmem byte 4095 is refused as TmemRange (the
spec's decisions D11 and D12, log 2). -/
def Obligations.TextureRectangleRefusals : Prop :=
  ∀ (x1 y1 : BitVec 12) (i : BitVec 3) (x0 y0 : BitVec 12) (sc tc dsdx dtdy : BitVec 16) (s : State) (dec : Nat),
    (s.params.texRectDec = .ulp ∧ dec = 1 ∨ s.params.texRectDec = .one ∧ dec = 4) →
    let inv := (s.tile i).rect.s1.toNat < (s.tile i).rect.s0.toNat ∨ (s.tile i).rect.t1.toNat < (s.tile i).rect.t0.toNat
    ((x1.toNat < x0.toNat + dec ∨ y1.toNat < y0.toNat + dec) →
      exec (.textureRectangle x1 y1 i x0 y0 sc tc dsdx dtdy) s = .refused .degenerateRect) ∧
    (x0.toNat + dec ≤ x1.toNat → y0.toNat + dec ≤ y1.toNat → inv →
      exec (.textureRectangle x1 y1 i x0 y0 sc tc dsdx dtdy) s = .refused .invertedRect) ∧
    (x0.toNat + dec ≤ x1.toNat → y0.toNat + dec ≤ y1.toNat → ¬ inv →
      4096 < (s.tile i).format.tmemAddr +
        ((s.tile i).rect.t1.toNat - (s.tile i).rect.t0.toNat) / 4 * (s.tile i).format.pitch +
        ((((s.tile i).rect.s1.toNat - (s.tile i).rect.s0.toNat) / 4 + 1) * bppBits (s.tile i).format.bpp + 7) / 8 →
      exec (.textureRectangle x1 y1 i x0 y0 sc tc dsdx dtdy) s = .refused .tmemRange)

/-- Texture Rectangle depends on no clip, cycle mode, fill colour, tex or pp, and changes none of them. Replacing clip,
cycle_mode, fill_color, tex and pp by any values before a Texture Rectangle changes neither whether it completes,
faults or is refused nor what it does to the rest: the outcomes are equal but for those fields. -/
def Obligations.TextureRectangleReadsNoModeClipOrPipeline : Prop :=
  ∀ (x1 y1 : BitVec 12) (i : BitVec 3) (x0 y0 : BitVec 12) (sc tc dsdx dtdy : BitVec 16) (s : State) (c : ClipRect)
      (m : CycleMode) (f : BitVec 32) (x : ImageFormat) (p : PipelineRegs),
    exec (.textureRectangle x1 y1 i x0 y0 sc tc dsdx dtdy)
        { s with clip := c, cycleMode := m, fillColor := f, tex := x, pp := p } =
      mapNext (fun t => { t with clip := c, cycleMode := m, fillColor := f, tex := x, pp := p })
        (exec (.textureRectangle x1 y1 i x0 y0 sc tc dsdx dtdy) s)

/-- Fill Rectangle in mode Two or Copy raises F_FILL_MODE before anything else. In mode Two or Copy, for every
rectangle, aligned or not, Fill Rectangle raises F_FILL_MODE with the mode, and memory, buffer and registers are as
before. Fault entry as a next state is the model's form of it (log 1). -/
def Obligations.FillRectangleInTwoOrCopyFaults : Prop :=
  ∀ (x1 y1 x0 y0 : BitVec 12) (s : State), (s.cycleMode = .two ∨ s.cycleMode = .copy) →
    exec (.fillRectangle x1 y1 x0 y0) s = .next
      { s with
        events := s.events ++ [.fault (.fillMode s.cycleMode)]
        faultLatch := { s.faultLatch with fillMode := true }
        outcome := .fault .fillMode }

/-- In modes Fill and One, F_FILL_ALIGN is raised exactly where the rescaled x coordinates do not reconstruct. In mode
Fill or One with c = 32 div fb.bpp: if X0' * c differs from X0, or (X1' + 4) * c - 4 differs from X1 with X1' = ((X1
+ 4) div c) - 4 in integers, Fill Rectangle raises F_FILL_ALIGN with (X0, X1, c) and writes no byte; if both
reconstruct, no next state it answers has raised F_FILL_ALIGN: its latch flag is as before and no FAULT event of
that kind is appended. The raw-level check is the spec's decision D16. -/
def Obligations.FillRectangleAlignmentFault : Prop :=
  ∀ (x1 y1 x0 y0 : BitVec 12) (s : State) (c : Nat) (r0 r1 : Int),
    (s.cycleMode = .fill ∨ s.cycleMode = .one) → c = 32 / bppBits s.fb.bpp →
    r0 = (x0.toNat / c : Nat) → r1 = ((x1.toNat + 4) / c : Nat) - 4 →
    (¬ (r0 * c = x0.toNat ∧ (r1 + 4) * c - 4 = x1.toNat) →
      exec (.fillRectangle x1 y1 x0 y0) s = .next
        { s with
          events := s.events ++ [.fault (.fillAlign x0.toNat x1.toNat c)]
          faultLatch := { s.faultLatch with fillAlign := true }
          outcome := .fault .fillAlign }) ∧
    (r0 * c = x0.toNat ∧ (r1 + 4) * c - 4 = x1.toNat →
      ∀ t, exec (.fillRectangle x1 y1 x0 y0) s = .next t → t.faultLatch.fillAlign = s.faultLatch.fillAlign ∧
        ∃ es, t.events = s.events ++ es ∧ ∀ a b k, Event.fault (.fillAlign a b k) ∉ es)

/-- In mode Fill every 32-bit pixel of the rescaled rectangle gets fill_color, most significant byte first, and no other
byte changes. In mode Fill, with an aligned rectangle that is not inverted, whose rescaled coordinates are whole
pixels inside 320 by 240 and whose bytes all resolve, Fill Rectangle answers a next state that differs only in
system memory, its write view on MEM and then its one request (the order is D21, log 4); byte b of pixel (i, j)
holds bits 31-8b:24-8b of fill_color wherever no later row starts at or below its address, and every byte of no
pixel reads as before. -/
def Obligations.FlatFillWritesWholeWords : Prop :=
  ∀ (x1 y1 x0 y0 : BitVec 12) (s : State) (c X P px py nx ny D : Nat),
    s.cycleMode = .fill → c = 32 / bppBits s.fb.bpp → x0.toNat % c = 0 → (x1.toNat + 4) % c = 0 →
    x0.toNat ≤ x1.toNat → y0.toNat ≤ y1.toNat → X + 4 = (x1.toNat + 4) / c →
    x0.toNat / c % 4 = 0 → X % 4 = 0 → y0.toNat % 4 = 0 → y1.toNat % 4 = 0 → X / 4 < 320 → y1.toNat / 4 < 240 →
    P = s.fb.width * bppBits s.fb.bpp / 8 → px = x0.toNat / c / 4 → py = y0.toNat / 4 →
    nx = (X - x0.toNat / c) / 4 + 1 → ny = (y1.toNat - y0.toNat) / 4 + 1 →
    D = s.fb.dramAddr.toNat + py * P + px * 4 →
    (∀ j < ny, ∀ k < nx * 4, resolves s.params.memMap (D + j * P + k) = true) →
    ∃ t, exec (.fillRectangle x1 y1 x0 y0) s = .next t ∧
      t = { s with
            sysMem := t.sysMem
            events := s.events ++ [.mem (.write s.fb.dramAddr.toNat), .fillRect
              ⟨.sys, s.fb.dramAddr.toNat, 320, 240, P, .rgba, .b32, .be⟩
              ⟨x0.toNat / c, y0.toNat, X, y1.toNat⟩ s.fillColor] } ∧
      (∀ j i b, j < ny → i < nx → b < 4 → (∀ j', j < j' → j' < ny → D + j * P + i * 4 + b < D + j' * P) →
        readByte t.sysMem (D + j * P + i * 4 + b) = s.fillColor.extractLsb' (24 - 8 * b) 8) ∧
      ∀ a, (∀ j < ny, a < D + j * P ∨ D + j * P + nx * 4 ≤ a) → readByte t.sysMem a = readByte s.sysMem a

/-- In mode One one pipeline fill is issued with the fill colour read as ABGR8888 and pp, and no byte outside the view
changes. In mode One, with an aligned rectangle that is not inverted, whose rescaled coordinates are whole pixels
inside 320 by 240, and the view's whole footprint resolving, Fill Rectangle answers a next state that differs only
in system memory, its write view on MEM and then its one request (which views mode One obtains is the model's
choice, log 21; the order is D21, log 4); the request carries the little-endian view, the rescaled rectangle, pp,
and r, g, b, a from bits 31:24, 23:16, 15:8, 7:0 under lsb_first (the mirror image under msb_first, log 13); every
byte outside the footprint reads as before. What is drawn inside is a free value (log 9). -/
def Obligations.PipelineFillIssuesOneRequest : Prop :=
  ∀ (x1 y1 x0 y0 : BitVec 12) (s : State) (c X P : Nat),
    s.cycleMode = .one → c = 32 / bppBits s.fb.bpp → x0.toNat % c = 0 → (x1.toNat + 4) % c = 0 →
    x0.toNat ≤ x1.toNat → y0.toNat ≤ y1.toNat → X + 4 = (x1.toNat + 4) / c →
    x0.toNat / c % 4 = 0 → X % 4 = 0 → y0.toNat % 4 = 0 → y1.toNat % 4 = 0 → X / 4 < 320 → y1.toNat / 4 < 240 →
    P = s.fb.width * bppBits s.fb.bpp / 8 →
    (∀ k < 239 * P + 1280, resolves s.params.memMap (s.fb.dramAddr.toNat + k) = true) →
    ∃ t color, exec (.fillRectangle x1 y1 x0 y0) s = .next t ∧
      t = { s with
            sysMem := t.sysMem
            events := s.events ++ [.mem (.write s.fb.dramAddr.toNat), .fillRectWithPipeline
              ⟨.sys, s.fb.dramAddr.toNat, 320, 240, P, .rgba, .b32, .le⟩
              ⟨x0.toNat / c, y0.toNat, X, y1.toNat⟩ color s.pp] } ∧
      (s.params.channelNameOrder = .lsbFirst →
        color.r ++ color.g ++ color.b ++ color.a = s.fillColor) ∧
      (s.params.channelNameOrder = .msbFirst →
        color.a ++ color.b ++ color.g ++ color.r = s.fillColor) ∧
      ∀ a, (a < s.fb.dramAddr.toNat ∨ s.fb.dramAddr.toNat + (239 * P + 1280) ≤ a) →
        readByte t.sysMem a = readByte s.sysMem a

/-- An aligned fill is refused, in this order, as inverted, underflowing, fractional, or outside the working area. In
mode Fill or One with an aligned rectangle: X1 < X0 or Y1 < Y0 is refused as InvertedRect; otherwise (X1 + 4) div c
< 4 as RescaleUnderflow; otherwise a rescaled coordinate that is no multiple of 4 as FractionalRect; otherwise a
right edge at pixel 320 or beyond, or a bottom edge at row 240 or beyond, as OutsideWorkArea (the spec's decisions,
log 2). -/
def Obligations.FillRectangleRefusals : Prop :=
  ∀ (x1 y1 x0 y0 : BitVec 12) (s : State) (c X : Nat),
    (s.cycleMode = .fill ∨ s.cycleMode = .one) → c = 32 / bppBits s.fb.bpp →
    x0.toNat % c = 0 → (x1.toNat + 4) % c = 0 →
    ((x1.toNat < x0.toNat ∨ y1.toNat < y0.toNat) → exec (.fillRectangle x1 y1 x0 y0) s = .refused .invertedRect) ∧
    (x0.toNat ≤ x1.toNat → y0.toNat ≤ y1.toNat →
      ((x1.toNat + 4) / c < 4 → exec (.fillRectangle x1 y1 x0 y0) s = .refused .rescaleUnderflow) ∧
      (X + 4 = (x1.toNat + 4) / c →
        (x0.toNat / c % 4 ≠ 0 ∨ X % 4 ≠ 0 ∨ y0.toNat % 4 ≠ 0 ∨ y1.toNat % 4 ≠ 0 →
          exec (.fillRectangle x1 y1 x0 y0) s = .refused .fractionalRect) ∧
        (x0.toNat / c % 4 = 0 → X % 4 = 0 → y0.toNat % 4 = 0 → y1.toNat % 4 = 0 →
          (320 ≤ X / 4 ∨ 240 ≤ y1.toNat / 4) →
          exec (.fillRectangle x1 y1 x0 y0) s = .refused .outsideWorkArea)))

/-- Texture Rectangle with an unresolved framebuffer byte raises F_MEM with the lowest such address and draws nothing.
When the earlier tests pass and some byte of the destination footprint does not resolve, Texture Rectangle raises
F_MEM with the lowest such address; system memory and every register are as before and no view is obtained. -/
def Obligations.TextureRectangleUnresolvedFaults : Prop :=
  ∀ (x1 y1 : BitVec 12) (i : BitVec 3) (x0 y0 : BitVec 12) (sc tc dsdx dtdy : BitVec 16) (s : State)
      (dec a dstLen : Nat),
    (s.params.texRectDec = .ulp ∧ dec = 1 ∨ s.params.texRectDec = .one ∧ dec = 4) →
    x0.toNat + dec ≤ x1.toNat → y0.toNat + dec ≤ y1.toNat →
    (s.tile i).rect.s0.toNat ≤ (s.tile i).rect.s1.toNat → (s.tile i).rect.t0.toNat ≤ (s.tile i).rect.t1.toNat →
    (s.tile i).format.tmemAddr + ((s.tile i).rect.t1.toNat - (s.tile i).rect.t0.toNat) / 4 * (s.tile i).format.pitch +
      ((((s.tile i).rect.s1.toNat - (s.tile i).rect.s0.toNat) / 4 + 1) * bppBits (s.tile i).format.bpp + 7) / 8
        ≤ 4096 →
    dstLen = 239 * (s.fb.width * bppBits s.fb.bpp / 8) + 320 * bppBits s.fb.bpp / 8 →
    s.fb.dramAddr.toNat ≤ a → a < s.fb.dramAddr.toNat + dstLen → resolves s.params.memMap a = false →
    (∀ k, s.fb.dramAddr.toNat ≤ k → k < a → resolves s.params.memMap k = true) →
    exec (.textureRectangle x1 y1 i x0 y0 sc tc dsdx dtdy) s = .next
      { s with
        events := s.events ++ [.fault (.mem a)]
        faultLatch := { s.faultLatch with mem := true }
        outcome := .fault .mem }

/-- Fill Rectangle with an unresolved byte raises F_MEM with the lowest such address and writes nothing. When the
earlier tests pass and some needed byte does not resolve, Fill Rectangle raises F_MEM with the lowest such address
and writes no byte, those that resolve included; mode Fill needs the bytes of the pixels it writes, mode One the
whole footprint of its view. -/
def Obligations.FillRectangleUnresolvedFaults : Prop :=
  ∀ (x1 y1 x0 y0 : BitVec 12) (s : State) (c X P nx ny D a : Nat),
    c = 32 / bppBits s.fb.bpp → x0.toNat % c = 0 → (x1.toNat + 4) % c = 0 →
    x0.toNat ≤ x1.toNat → y0.toNat ≤ y1.toNat → X + 4 = (x1.toNat + 4) / c →
    x0.toNat / c % 4 = 0 → X % 4 = 0 → y0.toNat % 4 = 0 → y1.toNat % 4 = 0 → X / 4 < 320 → y1.toNat / 4 < 240 →
    P = s.fb.width * bppBits s.fb.bpp / 8 → nx = (X - x0.toNat / c) / 4 + 1 → ny = (y1.toNat - y0.toNat) / 4 + 1 →
    D = s.fb.dramAddr.toNat + y0.toNat / 4 * P + x0.toNat / c / 4 * 4 → resolves s.params.memMap a = false →
    ((s.cycleMode = .fill ∧ (∃ j < ny, ∃ k < nx * 4, a = D + j * P + k) ∧
        ∀ j < ny, ∀ k < nx * 4, resolves s.params.memMap (D + j * P + k) = false → a ≤ D + j * P + k) ∨
      (s.cycleMode = .one ∧ s.fb.dramAddr.toNat ≤ a ∧ a < s.fb.dramAddr.toNat + (239 * P + 1280) ∧
        ∀ k, s.fb.dramAddr.toNat ≤ k → k < a → resolves s.params.memMap k = true)) →
    exec (.fillRectangle x1 y1 x0 y0) s = .next
      { s with
        events := s.events ++ [.fault (.mem a)]
        faultLatch := { s.faultLatch with mem := true }
        outcome := .fault .mem }

/-- A step that raises a fault emits that FAULT event alone, latches its kind, clears the length, and changes only a
Load Tile's rect. If submit answers a next state whose outcome is Fault(k), then its only event is one FAULT of kind
k (so no view was obtained and no request issued), the latch is the old latch with k inserted, cmdlen is 0, system
memory, tmem and every register are as before, every tile's format fields are as before, and rect too unless the
command was a Load Tile. If the outcome is Ok, the latch is as before and no FAULT event was emitted (log 1). -/
def Obligations.FaultsArePrecise : Prop :=
  ∀ (s t : State) (w : Word), submit w s = .next t →
    (∀ k, t.outcome = .fault k →
      (∃ f : FaultReport, f.kind = k ∧ t.events = [.fault f]) ∧
      t = { s with cmdbuf := t.cmdbuf, cmdlen := 0, tiles := t.tiles, events := t.events,
                   faultLatch := s.faultLatch.insert k, outcome := .fault k } ∧
      (∀ j, (t.tile j).format = (s.tile j).format) ∧ (opcodeOf t.cmdbuf[0] ≠ 0x34 → t.tiles = s.tiles)) ∧
    (t.outcome = .ok → t.faultLatch = s.faultLatch ∧ ∀ f, Event.fault f ∉ t.events)

/-- No step removes a member of the fault latch, and a step adds at most the kind it raised. If step answers a next
state t, every kind latched before is latched in t; a kind that is latched in t and was not before is the kind of
the fault that step returned. -/
def Obligations.FaultLatchIsSticky : Prop :=
  ∀ (s t : State) (k : FaultKind), step s = .next t →
    (s.faultLatch.has k = true → t.faultLatch.has k = true) ∧
    (t.faultLatch.has k = true → s.faultLatch.has k = false → t.outcome = .fault k)

/-- A step is refused only with a reason of the spec's list, by the command the list names, and never as not modelled.
If exec of i is refused with r then i is Load Tile with InvertedRect or TmemRange, Texture Rectangle with
DegenerateRect, InvertedRect or TmemRange, or Fill Rectangle with InvertedRect, RescaleUnderflow, FractionalRect or
OutsideWorkArea; and every one of the nine register-setting commands completes in every state. -/
def Obligations.OnlyNamedRefusals : Prop :=
  (∀ (i : Instr) (s : State) (r : Refusal), exec i s = .refused r →
      ((∃ a b c d e, i = .loadTile a b c d e) ∧ r ∈ [Refusal.invertedRect, .tmemRange]) ∨
      ((∃ a b c d e f g h k, i = .textureRectangle a b c d e f g h k) ∧
        r ∈ [Refusal.degenerateRect, .invertedRect, .tmemRange]) ∨
      ((∃ a b c d, i = .fillRectangle a b c d) ∧
        r ∈ [Refusal.invertedRect, .rescaleUnderflow, .fractionalRect, .outsideWorkArea])) ∧
    ∀ (i : Instr) (s : State), setterSlot i ≠ none → ∃ t, exec i s = .next t

/-- From a legal state no step ends in the machine's own fault: the buffer never fills. In every legal state step
answers a next state or a refusal; the fault commandBufferFull (the model's own, log 16) cannot arise. -/
def Obligations.LegalStatesNeverStop : Prop :=
  ∀ (s : State) (e : Fault), s.legal = true → step s ≠ .fault e

/-- Every step from a legal state leads to a legal state. If s is legal (widths 1 to 1024, pitch and tmem_addr multiples
of 8 up to 4088, masks 2^n - 1, cmdlen 0 or 1 and 1 only where a Texture Rectangle waits, both memories in canonical
form, tmem addresses below 4096) and step s answers next t, a fault entry included, then t is legal. The canonical
form is the model's (log 8). -/
def Obligations.StepKeepsLegalStates : Prop :=
  ∀ s t : State, s.legal = true → step s = .next t → t.legal = true

/-- The reset state is legal, at a command boundary, with no fault latched. State.reset satisfies the legality
conditions, cmdlen is 0 and fault_latch is empty; the other values are the default of RESET_STATE (DESIGN CHOICE,
log 5) and nothing here rests on them. -/
def Obligations.ResetIsALegalResetState : Prop :=
  State.reset.isResetState = true ∧ State.reset.cmdlen = 0 ∧ State.reset.safe = true ∧
    ∀ k, State.reset.faultLatch.has k = false

/-- No step depends on clip, on a tile's palette, clamp, mirror, mask or shift, or on fault_latch. If two states agree
in everything but clip, the tiles' palette, clamp, mirror, mask and shift fields, and fault_latch, then step at both
ends the same way (same refusal, same fault), and two next states again agree in everything but those. -/
def Obligations.UnreadStateNeverMatters : Prop :=
  ∀ s s' : State, s.eraseUnread = s'.eraseUnread →
    mapNext State.eraseUnread (step s) = mapNext State.eraseUnread (step s')

/-- Each register and each memory is written by the commands of the write-set table alone. Whatever next state a command
answers: fb changes only by Set Color Image, tex by Set Texture Image, clip by Set Scissor, fill_color by Set Fill
Color, cycle_mode and pp.other_modes by Set Other Modes, pp.combine by Set Combine Mode, pp.blend by Set Blend
Color, tmem by Load Tile, system memory by Texture Rectangle and Fill Rectangle; the pending buffer, its length, the
parameters and CMD_IN by none. -/
def Obligations.WriteSets : Prop :=
  ∀ (i : Instr) (s t : State), exec i s = .next t →
    (t.fb ≠ s.fb → i.opcode = 0x3F) ∧ (t.tex ≠ s.tex → i.opcode = 0x3D) ∧ (t.clip ≠ s.clip → i.opcode = 0x2D) ∧
    (t.fillColor ≠ s.fillColor → i.opcode = 0x37) ∧ (t.cycleMode ≠ s.cycleMode → i.opcode = 0x2F) ∧
    (t.pp.otherModes ≠ s.pp.otherModes → i.opcode = 0x2F) ∧ (t.pp.combine ≠ s.pp.combine → i.opcode = 0x3C) ∧
    (t.pp.blend ≠ s.pp.blend → i.opcode = 0x39) ∧ (t.tiles ≠ s.tiles → i.opcode = 0x34 ∨ i.opcode = 0x35) ∧
    (t.tmem ≠ s.tmem → i.opcode = 0x34) ∧ (t.sysMem ≠ s.sysMem → i.opcode = 0x24 ∨ i.opcode = 0x36) ∧
    (t.faultLatch ≠ s.faultLatch → i.opcode = 0x24 ∨ i.opcode = 0x34 ∨ i.opcode = 0x36) ∧
    t.cmdbuf = s.cmdbuf ∧ t.cmdlen = s.cmdlen ∧ t.params = s.params ∧ t.cmdIn = s.cmdIn

/-- A step obtains at most one view of system memory, before its one raster request, and only the three drawing commands
do. If submit answers a next state, its events hold no MEM transaction and no raster request; or they are one read
view at tex.dram_addr and then one raster request, after a Load Tile; or one write view at fb.dram_addr and then one
raster request, after a Texture Rectangle or a Fill Rectangle, the registers being those the step began with. Which
views the two rectangles obtain is the model's choice where R73 leaves it open (log 21); the order is D21 (log 4). -/
def Obligations.AtMostOneViewEachWay : Prop :=
  ∀ (s t : State) (w : Word), submit w s = .next t →
    (t.memViews = [] ∧ ∀ e ∈ t.events, e.isRaster = false) ∨
    ∃ r : Event, r.isRaster = true ∧
      ((t.events = [.mem (.read s.tex.dramAddr.toNat), r] ∧ opcodeOf t.cmdbuf[0] = 0x34) ∨
        (t.events = [.mem (.write s.fb.dramAddr.toNat), r] ∧
          (opcodeOf t.cmdbuf[0] = 0x24 ∨ opcodeOf t.cmdbuf[0] = 0x36)))

/-- What the two uninterpreted routines draw depends on no byte of either memory outside the views they are given. For
two states equal but for their two memories, where a Texture Rectangle answers a next state from the first: if both
hold the same bytes in its destination view and in its source view of tmem, it answers from the second a next state
that differs in the two memories alone and holds the same bytes in the destination view, whatever the bytes outside
the two views. The same of a Fill Rectangle in mode One if both hold the same bytes in its one view, whatever tmem
and the bytes outside the view. The frame assumptions are the spec's decision D19 (log 9). -/
def Obligations.DrawnBytesDependOnViewsOnly : Prop :=
  ∀ (s s' t : State) (m n : List Host.Cell), s' = { s with sysMem := m, tmem := n } →
    (∀ (x1 y1 : BitVec 12) (i : BitVec 3) (x0 y0 : BitVec 12) (sc tc dsdx dtdy : BitVec 16),
      exec (.textureRectangle x1 y1 i x0 y0 sc tc dsdx dtdy) s = .next t →
      viewBytes m (drawDstView s) = viewBytes s.sysMem (drawDstView s) →
      viewBytes n (drawSrcView s i) = viewBytes s.tmem (drawSrcView s i) →
      ∃ t', exec (.textureRectangle x1 y1 i x0 y0 sc tc dsdx dtdy) s' = .next t' ∧
        t' = { t with sysMem := t'.sysMem, tmem := n } ∧
        viewBytes t'.sysMem (drawDstView s) = viewBytes t.sysMem (drawDstView s)) ∧
    ∀ (x1 y1 x0 y0 : BitVec 12), s.cycleMode = .one → exec (.fillRectangle x1 y1 x0 y0) s = .next t →
      viewBytes m (pipelineView s) = viewBytes s.sysMem (pipelineView s) →
      ∃ t', exec (.fillRectangle x1 y1 x0 y0) s' = .next t' ∧ t' = { t with sysMem := t'.sysMem, tmem := n } ∧
        viewBytes t'.sysMem (pipelineView s) = viewBytes t.sysMem (pipelineView s)

/-- A byte written reads back, every other byte reads as before, and a write keeps the canonical form (the model's, log
8). For every memory, address and byte: reading the address after the write gives the byte, reading any other
address gives what it gave before, and a memory in canonical form stays in it. -/
def Obligations.MemoryReadAfterWrite : Prop :=
  ∀ (m : List Host.Cell) (a : Nat) (b : Byte), readByte (writeByte m a b) a = b ∧
    (∀ k, k ≠ a → readByte (writeByte m a b) k = readByte m k) ∧
    (Memory.wf m = true → Memory.wf (writeByte m a b) = true)

/-- Two memories in canonical form that read alike at every address are equal data (the model's form, log 8). If two
lists of cells are both in canonical form and give the same byte at every address, then they are the same list. -/
def Obligations.CanonicalMemoriesAreDetermined : Prop :=
  ∀ m n : List Host.Cell, Memory.wf m = true → Memory.wf n = true → (∀ a, readByte m a = readByte n a) → m = n

/-- An instruction placed by withFetchWord is what the very next step runs (the model's placement, log 17). For every
state and every number w of up to 128 bits, if the words of w decode to instruction i, then step at the state with w
placed is exec of i at the state in which those words are buffered, with the length then cleared. -/
def Obligations.PlacedInstructionRunsNext : Prop :=
  ∀ (s : State) (w : Nat) (w0 w1 : Word) (i : Instr), w < 2 ^ 128 → w0.toNat = w % 2 ^ 64 → w1.toNat = w / 2 ^ 64 →
    decodeWords w0 w1 = .ok i →
    ∃ u, step (s.withFetchWord 128 w) = mapNext (fun t => { t with cmdlen := 0 }) (exec i u) ∧
      u = { s with cmdbuf := u.cmdbuf, cmdlen := u.cmdlen, events := [], outcome := .ok } ∧
      u.cmdbuf[0] = w0 ∧ (opcodeOf w0 = 0x24 → u.cmdbuf[1] = w1)
end

