-- ==== Sys2Proof/Laws/Fields.lean ====
section
/-! SUPPORT. The laws of the bit-field decoder: what a field read gives, and reading a field back from a word built by
the encoder (spec/40_assembler_dispatch.md R140, spec/30_encoding.md R131). -/

namespace Sys2Proof.Machine

/-- A field read is Lean's bit extraction. -/
theorem take_eq_extract {n : Nat} (w : Word) (f : BitField n) : take w f = w.extractLsb' f.lo n := by
  cases n with
  | zero => exact Subsingleton.elim _ _
  | succ n =>
    apply BitVec.eq_of_toNat_eq
    simp only [take, ufield, BitVec.toNat_ofNat, BitVec.extractLsb'_toNat]
    rw [show f.lo + (n + 1) - 1 - f.lo + 1 = n + 1 by omega, Nat.mod_mod]

/-- A field read gives the word shifted and masked (R10, R140). -/
theorem toNat_take {n : Nat} (w : Word) (f : BitField n) : (take w f).toNat = w.toNat / 2 ^ f.lo % 2 ^ n := by
  rw [take_eq_extract, BitVec.extractLsb'_toNat, Nat.shiftRight_eq_div_pow]

/-- Bit `j` of a field read. -/
theorem getLsbD_take {n : Nat} (w : Word) (f : BitField n) (j : Nat) :
    (take w f).getLsbD j = (decide (j < n) && w.getLsbD (f.lo + j)) := by
  rw [take_eq_extract, BitVec.getLsbD_extractLsb']

/-- Bit `j` of a placed field. -/
theorem getLsbD_place {n : Nat} (v : BitVec n) (f : BitField n) (j : Nat) :
    (place v f).getLsbD j = (decide (j < 64) && decide (f.lo ≤ j) && v.getLsbD (j - f.lo)) := by
  by_cases h : j < 64 <;> by_cases h' : f.lo ≤ j
  · have h2 : ¬ j < f.lo := by omega
    simp [place, h, h', h2]
  · simp [place, h, h', Nat.lt_of_not_le h']
  · simp [place, h]
  · simp [place, h]

/-- A field reads back what was placed in it. -/
theorem take_place_same {n : Nat} (v : BitVec n) (f : BitField n) (h : f.lo + n ≤ 64) : take (place v f) f = v := by
  apply BitVec.eq_of_getLsbD_eq
  intro j hj
  rw [getLsbD_take, getLsbD_place]
  simp [hj, show f.lo + j < 64 by omega, show f.lo + j - f.lo = j by omega]

/-- A field reads 0 where another field was placed. -/
theorem take_place_other {m n : Nat} (v : BitVec n) (f : BitField n) (g : BitField m)
    (h : f.lo + n ≤ g.lo ∨ g.lo + m ≤ f.lo) : take (place v f) g = 0#m := by
  apply BitVec.eq_of_getLsbD_eq
  intro j hj
  rw [getLsbD_take, getLsbD_place]
  rcases h with h | h
  · rw [BitVec.getLsbD_of_ge _ _ (by omega)]; simp
  · simp [show ¬ f.lo ≤ g.lo + j by omega]

/-- A field of an OR of words is the OR of the fields. -/
theorem take_or {n : Nat} (x y : Word) (f : BitField n) : take (x ||| y) f = take x f ||| take y f := by
  apply BitVec.eq_of_getLsbD_eq
  intro j hj
  rw [BitVec.getLsbD_or, getLsbD_take, getLsbD_take, getLsbD_take, BitVec.getLsbD_or]
  cases decide (j < n) <;> simp

end Sys2Proof.Machine
end

