-- ==== Sys2Proof/Laws/State.lean ====
section
/-! SUPPORT. One lemma per field per named update of the state, true by rfl, and the tile file's read-after-write
laws. -/

namespace Sys2Proof.Machine

@[simp] theorem emit_cmdbuf (s : State) (es : List Event) : (s.emit es).cmdbuf = s.cmdbuf := rfl
@[simp] theorem emit_cmdlen (s : State) (es : List Event) : (s.emit es).cmdlen = s.cmdlen := rfl
@[simp] theorem emit_fb (s : State) (es : List Event) : (s.emit es).fb = s.fb := rfl
@[simp] theorem emit_tex (s : State) (es : List Event) : (s.emit es).tex = s.tex := rfl
@[simp] theorem emit_clip (s : State) (es : List Event) : (s.emit es).clip = s.clip := rfl
@[simp] theorem emit_tiles (s : State) (es : List Event) : (s.emit es).tiles = s.tiles := rfl
@[simp] theorem emit_fillColor (s : State) (es : List Event) : (s.emit es).fillColor = s.fillColor := rfl
@[simp] theorem emit_cycleMode (s : State) (es : List Event) : (s.emit es).cycleMode = s.cycleMode := rfl
@[simp] theorem emit_tmem (s : State) (es : List Event) : (s.emit es).tmem = s.tmem := rfl
@[simp] theorem emit_faultLatch (s : State) (es : List Event) : (s.emit es).faultLatch = s.faultLatch := rfl
@[simp] theorem emit_pp (s : State) (es : List Event) : (s.emit es).pp = s.pp := rfl
@[simp] theorem emit_sysMem (s : State) (es : List Event) : (s.emit es).sysMem = s.sysMem := rfl
@[simp] theorem emit_params (s : State) (es : List Event) : (s.emit es).params = s.params := rfl
@[simp] theorem emit_cmdIn (s : State) (es : List Event) : (s.emit es).cmdIn = s.cmdIn := rfl
@[simp] theorem emit_events (s : State) (es : List Event) : (s.emit es).events = s.events ++ es := rfl
@[simp] theorem emit_outcome (s : State) (es : List Event) : (s.emit es).outcome = s.outcome := rfl

@[simp] theorem obtain_cmdbuf (s : State) (v : MemView) : (s.obtain v).cmdbuf = s.cmdbuf := rfl
@[simp] theorem obtain_cmdlen (s : State) (v : MemView) : (s.obtain v).cmdlen = s.cmdlen := rfl
@[simp] theorem obtain_fb (s : State) (v : MemView) : (s.obtain v).fb = s.fb := rfl
@[simp] theorem obtain_tex (s : State) (v : MemView) : (s.obtain v).tex = s.tex := rfl
@[simp] theorem obtain_clip (s : State) (v : MemView) : (s.obtain v).clip = s.clip := rfl
@[simp] theorem obtain_tiles (s : State) (v : MemView) : (s.obtain v).tiles = s.tiles := rfl
@[simp] theorem obtain_fillColor (s : State) (v : MemView) : (s.obtain v).fillColor = s.fillColor := rfl
@[simp] theorem obtain_cycleMode (s : State) (v : MemView) : (s.obtain v).cycleMode = s.cycleMode := rfl
@[simp] theorem obtain_tmem (s : State) (v : MemView) : (s.obtain v).tmem = s.tmem := rfl
@[simp] theorem obtain_faultLatch (s : State) (v : MemView) : (s.obtain v).faultLatch = s.faultLatch := rfl
@[simp] theorem obtain_pp (s : State) (v : MemView) : (s.obtain v).pp = s.pp := rfl
@[simp] theorem obtain_sysMem (s : State) (v : MemView) : (s.obtain v).sysMem = s.sysMem := rfl
@[simp] theorem obtain_params (s : State) (v : MemView) : (s.obtain v).params = s.params := rfl
@[simp] theorem obtain_cmdIn (s : State) (v : MemView) : (s.obtain v).cmdIn = s.cmdIn := rfl
@[simp] theorem obtain_events (s : State) (v : MemView) : (s.obtain v).events = s.events ++ [.mem v] := rfl
@[simp] theorem obtain_outcome (s : State) (v : MemView) : (s.obtain v).outcome = s.outcome := rfl

@[simp] theorem setTile_cmdbuf (s : State) (i : BitVec 3) (t : Tile) : (s.setTile i t).cmdbuf = s.cmdbuf := rfl
@[simp] theorem setTile_cmdlen (s : State) (i : BitVec 3) (t : Tile) : (s.setTile i t).cmdlen = s.cmdlen := rfl
@[simp] theorem setTile_fb (s : State) (i : BitVec 3) (t : Tile) : (s.setTile i t).fb = s.fb := rfl
@[simp] theorem setTile_tex (s : State) (i : BitVec 3) (t : Tile) : (s.setTile i t).tex = s.tex := rfl
@[simp] theorem setTile_clip (s : State) (i : BitVec 3) (t : Tile) : (s.setTile i t).clip = s.clip := rfl
@[simp] theorem setTile_tiles (s : State) (i : BitVec 3) (t : Tile) :
    (s.setTile i t).tiles = s.tiles.set i.toNat t i.isLt := rfl
@[simp] theorem setTile_fillColor (s : State) (i : BitVec 3) (t : Tile) :
    (s.setTile i t).fillColor = s.fillColor := rfl
@[simp] theorem setTile_cycleMode (s : State) (i : BitVec 3) (t : Tile) :
    (s.setTile i t).cycleMode = s.cycleMode := rfl
@[simp] theorem setTile_tmem (s : State) (i : BitVec 3) (t : Tile) : (s.setTile i t).tmem = s.tmem := rfl
@[simp] theorem setTile_faultLatch (s : State) (i : BitVec 3) (t : Tile) :
    (s.setTile i t).faultLatch = s.faultLatch := rfl
@[simp] theorem setTile_pp (s : State) (i : BitVec 3) (t : Tile) : (s.setTile i t).pp = s.pp := rfl
@[simp] theorem setTile_sysMem (s : State) (i : BitVec 3) (t : Tile) : (s.setTile i t).sysMem = s.sysMem := rfl
@[simp] theorem setTile_params (s : State) (i : BitVec 3) (t : Tile) : (s.setTile i t).params = s.params := rfl
@[simp] theorem setTile_cmdIn (s : State) (i : BitVec 3) (t : Tile) : (s.setTile i t).cmdIn = s.cmdIn := rfl
@[simp] theorem setTile_events (s : State) (i : BitVec 3) (t : Tile) : (s.setTile i t).events = s.events := rfl
@[simp] theorem setTile_outcome (s : State) (i : BitVec 3) (t : Tile) : (s.setTile i t).outcome = s.outcome := rfl

@[simp] theorem setTileFormat_cmdbuf (s : State) (i : BitVec 3) (f : TileFormat) :
    (s.setTileFormat i f).cmdbuf = s.cmdbuf := rfl
@[simp] theorem setTileFormat_cmdlen (s : State) (i : BitVec 3) (f : TileFormat) :
    (s.setTileFormat i f).cmdlen = s.cmdlen := rfl
@[simp] theorem setTileFormat_fb (s : State) (i : BitVec 3) (f : TileFormat) :
    (s.setTileFormat i f).fb = s.fb := rfl
@[simp] theorem setTileFormat_tex (s : State) (i : BitVec 3) (f : TileFormat) :
    (s.setTileFormat i f).tex = s.tex := rfl
@[simp] theorem setTileFormat_clip (s : State) (i : BitVec 3) (f : TileFormat) :
    (s.setTileFormat i f).clip = s.clip := rfl
@[simp] theorem setTileFormat_tiles (s : State) (i : BitVec 3) (f : TileFormat) :
    (s.setTileFormat i f).tiles = s.tiles.set i.toNat ⟨f, (s.tile i).rect⟩ i.isLt := rfl
@[simp] theorem setTileFormat_fillColor (s : State) (i : BitVec 3) (f : TileFormat) :
    (s.setTileFormat i f).fillColor = s.fillColor := rfl
@[simp] theorem setTileFormat_cycleMode (s : State) (i : BitVec 3) (f : TileFormat) :
    (s.setTileFormat i f).cycleMode = s.cycleMode := rfl
@[simp] theorem setTileFormat_tmem (s : State) (i : BitVec 3) (f : TileFormat) :
    (s.setTileFormat i f).tmem = s.tmem := rfl
@[simp] theorem setTileFormat_faultLatch (s : State) (i : BitVec 3) (f : TileFormat) :
    (s.setTileFormat i f).faultLatch = s.faultLatch := rfl
@[simp] theorem setTileFormat_pp (s : State) (i : BitVec 3) (f : TileFormat) :
    (s.setTileFormat i f).pp = s.pp := rfl
@[simp] theorem setTileFormat_sysMem (s : State) (i : BitVec 3) (f : TileFormat) :
    (s.setTileFormat i f).sysMem = s.sysMem := rfl
@[simp] theorem setTileFormat_params (s : State) (i : BitVec 3) (f : TileFormat) :
    (s.setTileFormat i f).params = s.params := rfl
@[simp] theorem setTileFormat_cmdIn (s : State) (i : BitVec 3) (f : TileFormat) :
    (s.setTileFormat i f).cmdIn = s.cmdIn := rfl
@[simp] theorem setTileFormat_events (s : State) (i : BitVec 3) (f : TileFormat) :
    (s.setTileFormat i f).events = s.events := rfl
@[simp] theorem setTileFormat_outcome (s : State) (i : BitVec 3) (f : TileFormat) :
    (s.setTileFormat i f).outcome = s.outcome := rfl

@[simp] theorem setTileRect_cmdbuf (s : State) (i : BitVec 3) (r : TileRect) :
    (s.setTileRect i r).cmdbuf = s.cmdbuf := rfl
@[simp] theorem setTileRect_cmdlen (s : State) (i : BitVec 3) (r : TileRect) :
    (s.setTileRect i r).cmdlen = s.cmdlen := rfl
@[simp] theorem setTileRect_fb (s : State) (i : BitVec 3) (r : TileRect) : (s.setTileRect i r).fb = s.fb := rfl
@[simp] theorem setTileRect_tex (s : State) (i : BitVec 3) (r : TileRect) : (s.setTileRect i r).tex = s.tex := rfl
@[simp] theorem setTileRect_clip (s : State) (i : BitVec 3) (r : TileRect) :
    (s.setTileRect i r).clip = s.clip := rfl
@[simp] theorem setTileRect_tiles (s : State) (i : BitVec 3) (r : TileRect) :
    (s.setTileRect i r).tiles = s.tiles.set i.toNat ⟨(s.tile i).format, r⟩ i.isLt := rfl
@[simp] theorem setTileRect_fillColor (s : State) (i : BitVec 3) (r : TileRect) :
    (s.setTileRect i r).fillColor = s.fillColor := rfl
@[simp] theorem setTileRect_cycleMode (s : State) (i : BitVec 3) (r : TileRect) :
    (s.setTileRect i r).cycleMode = s.cycleMode := rfl
@[simp] theorem setTileRect_tmem (s : State) (i : BitVec 3) (r : TileRect) :
    (s.setTileRect i r).tmem = s.tmem := rfl
@[simp] theorem setTileRect_faultLatch (s : State) (i : BitVec 3) (r : TileRect) :
    (s.setTileRect i r).faultLatch = s.faultLatch := rfl
@[simp] theorem setTileRect_pp (s : State) (i : BitVec 3) (r : TileRect) : (s.setTileRect i r).pp = s.pp := rfl
@[simp] theorem setTileRect_sysMem (s : State) (i : BitVec 3) (r : TileRect) :
    (s.setTileRect i r).sysMem = s.sysMem := rfl
@[simp] theorem setTileRect_params (s : State) (i : BitVec 3) (r : TileRect) :
    (s.setTileRect i r).params = s.params := rfl
@[simp] theorem setTileRect_cmdIn (s : State) (i : BitVec 3) (r : TileRect) :
    (s.setTileRect i r).cmdIn = s.cmdIn := rfl
@[simp] theorem setTileRect_events (s : State) (i : BitVec 3) (r : TileRect) :
    (s.setTileRect i r).events = s.events := rfl
@[simp] theorem setTileRect_outcome (s : State) (i : BitVec 3) (r : TileRect) :
    (s.setTileRect i r).outcome = s.outcome := rfl

@[simp] theorem raised_cmdbuf (s : State) (f : FaultReport) : (s.raised f).cmdbuf = s.cmdbuf := rfl
@[simp] theorem raised_cmdlen (s : State) (f : FaultReport) : (s.raised f).cmdlen = s.cmdlen := rfl
@[simp] theorem raised_fb (s : State) (f : FaultReport) : (s.raised f).fb = s.fb := rfl
@[simp] theorem raised_tex (s : State) (f : FaultReport) : (s.raised f).tex = s.tex := rfl
@[simp] theorem raised_clip (s : State) (f : FaultReport) : (s.raised f).clip = s.clip := rfl
@[simp] theorem raised_tiles (s : State) (f : FaultReport) : (s.raised f).tiles = s.tiles := rfl
@[simp] theorem raised_fillColor (s : State) (f : FaultReport) : (s.raised f).fillColor = s.fillColor := rfl
@[simp] theorem raised_cycleMode (s : State) (f : FaultReport) : (s.raised f).cycleMode = s.cycleMode := rfl
@[simp] theorem raised_tmem (s : State) (f : FaultReport) : (s.raised f).tmem = s.tmem := rfl
@[simp] theorem raised_faultLatch (s : State) (f : FaultReport) :
    (s.raised f).faultLatch = s.faultLatch.insert f.kind := rfl
@[simp] theorem raised_pp (s : State) (f : FaultReport) : (s.raised f).pp = s.pp := rfl
@[simp] theorem raised_sysMem (s : State) (f : FaultReport) : (s.raised f).sysMem = s.sysMem := rfl
@[simp] theorem raised_params (s : State) (f : FaultReport) : (s.raised f).params = s.params := rfl
@[simp] theorem raised_cmdIn (s : State) (f : FaultReport) : (s.raised f).cmdIn = s.cmdIn := rfl
@[simp] theorem raised_events (s : State) (f : FaultReport) : (s.raised f).events = s.events ++ [.fault f] := rfl
@[simp] theorem raised_outcome (s : State) (f : FaultReport) : (s.raised f).outcome = .fault f.kind := rfl

@[simp] theorem append_cmdbuf (s : State) (w : Word) (h : s.cmdlen < 16) :
    (s.append w h).cmdbuf = s.cmdbuf.set s.cmdlen w h := rfl
@[simp] theorem append_cmdlen (s : State) (w : Word) (h : s.cmdlen < 16) :
    (s.append w h).cmdlen = s.cmdlen + 1 := rfl
@[simp] theorem append_fb (s : State) (w : Word) (h : s.cmdlen < 16) : (s.append w h).fb = s.fb := rfl
@[simp] theorem append_tex (s : State) (w : Word) (h : s.cmdlen < 16) : (s.append w h).tex = s.tex := rfl
@[simp] theorem append_clip (s : State) (w : Word) (h : s.cmdlen < 16) : (s.append w h).clip = s.clip := rfl
@[simp] theorem append_tiles (s : State) (w : Word) (h : s.cmdlen < 16) : (s.append w h).tiles = s.tiles := rfl
@[simp] theorem append_fillColor (s : State) (w : Word) (h : s.cmdlen < 16) :
    (s.append w h).fillColor = s.fillColor := rfl
@[simp] theorem append_cycleMode (s : State) (w : Word) (h : s.cmdlen < 16) :
    (s.append w h).cycleMode = s.cycleMode := rfl
@[simp] theorem append_tmem (s : State) (w : Word) (h : s.cmdlen < 16) : (s.append w h).tmem = s.tmem := rfl
@[simp] theorem append_faultLatch (s : State) (w : Word) (h : s.cmdlen < 16) :
    (s.append w h).faultLatch = s.faultLatch := rfl
@[simp] theorem append_pp (s : State) (w : Word) (h : s.cmdlen < 16) : (s.append w h).pp = s.pp := rfl
@[simp] theorem append_sysMem (s : State) (w : Word) (h : s.cmdlen < 16) : (s.append w h).sysMem = s.sysMem := rfl
@[simp] theorem append_params (s : State) (w : Word) (h : s.cmdlen < 16) : (s.append w h).params = s.params := rfl
@[simp] theorem append_cmdIn (s : State) (w : Word) (h : s.cmdlen < 16) : (s.append w h).cmdIn = s.cmdIn := rfl
@[simp] theorem append_events (s : State) (w : Word) (h : s.cmdlen < 16) : (s.append w h).events = [] := rfl
@[simp] theorem append_outcome (s : State) (w : Word) (h : s.cmdlen < 16) : (s.append w h).outcome = .ok := rfl

@[simp] theorem loadDone_cmdbuf (s : State) (i : BitVec 3) (r : TileRect) :
    (s.loadDone i r).cmdbuf = s.cmdbuf := rfl
@[simp] theorem loadDone_cmdlen (s : State) (i : BitVec 3) (r : TileRect) :
    (s.loadDone i r).cmdlen = s.cmdlen := rfl
@[simp] theorem loadDone_fb (s : State) (i : BitVec 3) (r : TileRect) : (s.loadDone i r).fb = s.fb := rfl
@[simp] theorem loadDone_tex (s : State) (i : BitVec 3) (r : TileRect) : (s.loadDone i r).tex = s.tex := rfl
@[simp] theorem loadDone_clip (s : State) (i : BitVec 3) (r : TileRect) : (s.loadDone i r).clip = s.clip := rfl
@[simp] theorem loadDone_tiles (s : State) (i : BitVec 3) (r : TileRect) : (s.loadDone i r).tiles = s.tiles := rfl
@[simp] theorem loadDone_fillColor (s : State) (i : BitVec 3) (r : TileRect) :
    (s.loadDone i r).fillColor = s.fillColor := rfl
@[simp] theorem loadDone_cycleMode (s : State) (i : BitVec 3) (r : TileRect) :
    (s.loadDone i r).cycleMode = s.cycleMode := rfl
@[simp] theorem loadDone_tmem (s : State) (i : BitVec 3) (r : TileRect) :
    (s.loadDone i r).tmem = loadedTmem s i r := rfl
@[simp] theorem loadDone_faultLatch (s : State) (i : BitVec 3) (r : TileRect) :
    (s.loadDone i r).faultLatch = s.faultLatch := rfl
@[simp] theorem loadDone_pp (s : State) (i : BitVec 3) (r : TileRect) : (s.loadDone i r).pp = s.pp := rfl
@[simp] theorem loadDone_sysMem (s : State) (i : BitVec 3) (r : TileRect) :
    (s.loadDone i r).sysMem = s.sysMem := rfl
@[simp] theorem loadDone_params (s : State) (i : BitVec 3) (r : TileRect) :
    (s.loadDone i r).params = s.params := rfl
@[simp] theorem loadDone_cmdIn (s : State) (i : BitVec 3) (r : TileRect) : (s.loadDone i r).cmdIn = s.cmdIn := rfl
@[simp] theorem loadDone_events (s : State) (i : BitVec 3) (r : TileRect) :
    (s.loadDone i r).events = s.events ++ [.mem (.read s.tex.dramAddr.toNat)] ++
      [.copyRect (loadDstView s i r) (loadCols s r) (rectHeight r) (loadSrcView s r) r] := rfl
@[simp] theorem loadDone_outcome (s : State) (i : BitVec 3) (r : TileRect) :
    (s.loadDone i r).outcome = s.outcome := rfl

@[simp] theorem drawDone_cmdbuf (s : State) (i : BitVec 3) (r : RawRect) (b d : CoordPair) :
    (s.drawDone i r b d).cmdbuf = s.cmdbuf := rfl
@[simp] theorem drawDone_cmdlen (s : State) (i : BitVec 3) (r : RawRect) (b d : CoordPair) :
    (s.drawDone i r b d).cmdlen = s.cmdlen := rfl
@[simp] theorem drawDone_fb (s : State) (i : BitVec 3) (r : RawRect) (b d : CoordPair) :
    (s.drawDone i r b d).fb = s.fb := rfl
@[simp] theorem drawDone_tex (s : State) (i : BitVec 3) (r : RawRect) (b d : CoordPair) :
    (s.drawDone i r b d).tex = s.tex := rfl
@[simp] theorem drawDone_clip (s : State) (i : BitVec 3) (r : RawRect) (b d : CoordPair) :
    (s.drawDone i r b d).clip = s.clip := rfl
@[simp] theorem drawDone_tiles (s : State) (i : BitVec 3) (r : RawRect) (b d : CoordPair) :
    (s.drawDone i r b d).tiles = s.tiles := rfl
@[simp] theorem drawDone_fillColor (s : State) (i : BitVec 3) (r : RawRect) (b d : CoordPair) :
    (s.drawDone i r b d).fillColor = s.fillColor := rfl
@[simp] theorem drawDone_cycleMode (s : State) (i : BitVec 3) (r : RawRect) (b d : CoordPair) :
    (s.drawDone i r b d).cycleMode = s.cycleMode := rfl
@[simp] theorem drawDone_tmem (s : State) (i : BitVec 3) (r : RawRect) (b d : CoordPair) :
    (s.drawDone i r b d).tmem = s.tmem := rfl
@[simp] theorem drawDone_faultLatch (s : State) (i : BitVec 3) (r : RawRect) (b d : CoordPair) :
    (s.drawDone i r b d).faultLatch = s.faultLatch := rfl
@[simp] theorem drawDone_pp (s : State) (i : BitVec 3) (r : RawRect) (b d : CoordPair) :
    (s.drawDone i r b d).pp = s.pp := rfl
@[simp] theorem drawDone_sysMem (s : State) (i : BitVec 3) (r : RawRect) (b d : CoordPair) :
    (s.drawDone i r b d).sysMem = drawnMemory s i r b d := rfl
@[simp] theorem drawDone_params (s : State) (i : BitVec 3) (r : RawRect) (b d : CoordPair) :
    (s.drawDone i r b d).params = s.params := rfl
@[simp] theorem drawDone_cmdIn (s : State) (i : BitVec 3) (r : RawRect) (b d : CoordPair) :
    (s.drawDone i r b d).cmdIn = s.cmdIn := rfl
@[simp] theorem drawDone_events (s : State) (i : BitVec 3) (r : RawRect) (b d : CoordPair) :
    (s.drawDone i r b d).events = s.events ++ [.mem (.write s.fb.dramAddr.toNat)] ++
      [.drawRectWithSlopes (drawDstView s) r (drawSrcView s i) b d] := rfl
@[simp] theorem drawDone_outcome (s : State) (i : BitVec 3) (r : RawRect) (b d : CoordPair) :
    (s.drawDone i r b d).outcome = s.outcome := rfl

@[simp] theorem flatFillDone_cmdbuf (s : State) (r : RawRect) : (s.flatFillDone r).cmdbuf = s.cmdbuf := rfl
@[simp] theorem flatFillDone_cmdlen (s : State) (r : RawRect) : (s.flatFillDone r).cmdlen = s.cmdlen := rfl
@[simp] theorem flatFillDone_fb (s : State) (r : RawRect) : (s.flatFillDone r).fb = s.fb := rfl
@[simp] theorem flatFillDone_tex (s : State) (r : RawRect) : (s.flatFillDone r).tex = s.tex := rfl
@[simp] theorem flatFillDone_clip (s : State) (r : RawRect) : (s.flatFillDone r).clip = s.clip := rfl
@[simp] theorem flatFillDone_tiles (s : State) (r : RawRect) : (s.flatFillDone r).tiles = s.tiles := rfl
@[simp] theorem flatFillDone_fillColor (s : State) (r : RawRect) :
    (s.flatFillDone r).fillColor = s.fillColor := rfl
@[simp] theorem flatFillDone_cycleMode (s : State) (r : RawRect) :
    (s.flatFillDone r).cycleMode = s.cycleMode := rfl
@[simp] theorem flatFillDone_tmem (s : State) (r : RawRect) : (s.flatFillDone r).tmem = s.tmem := rfl
@[simp] theorem flatFillDone_faultLatch (s : State) (r : RawRect) :
    (s.flatFillDone r).faultLatch = s.faultLatch := rfl
@[simp] theorem flatFillDone_pp (s : State) (r : RawRect) : (s.flatFillDone r).pp = s.pp := rfl
@[simp] theorem flatFillDone_sysMem (s : State) (r : RawRect) :
    (s.flatFillDone r).sysMem = fillRect s.sysMem (fillView s) r s.fillColor := rfl
@[simp] theorem flatFillDone_params (s : State) (r : RawRect) : (s.flatFillDone r).params = s.params := rfl
@[simp] theorem flatFillDone_cmdIn (s : State) (r : RawRect) : (s.flatFillDone r).cmdIn = s.cmdIn := rfl
@[simp] theorem flatFillDone_events (s : State) (r : RawRect) :
    (s.flatFillDone r).events = s.events ++ [.mem (.write s.fb.dramAddr.toNat)] ++
      [.fillRect (fillView s) r s.fillColor] := rfl
@[simp] theorem flatFillDone_outcome (s : State) (r : RawRect) : (s.flatFillDone r).outcome = s.outcome := rfl

@[simp] theorem pipelineFillDone_cmdbuf (s : State) (r : RawRect) : (s.pipelineFillDone r).cmdbuf = s.cmdbuf := rfl
@[simp] theorem pipelineFillDone_cmdlen (s : State) (r : RawRect) : (s.pipelineFillDone r).cmdlen = s.cmdlen := rfl
@[simp] theorem pipelineFillDone_fb (s : State) (r : RawRect) : (s.pipelineFillDone r).fb = s.fb := rfl
@[simp] theorem pipelineFillDone_tex (s : State) (r : RawRect) : (s.pipelineFillDone r).tex = s.tex := rfl
@[simp] theorem pipelineFillDone_clip (s : State) (r : RawRect) : (s.pipelineFillDone r).clip = s.clip := rfl
@[simp] theorem pipelineFillDone_tiles (s : State) (r : RawRect) : (s.pipelineFillDone r).tiles = s.tiles := rfl
@[simp] theorem pipelineFillDone_fillColor (s : State) (r : RawRect) :
    (s.pipelineFillDone r).fillColor = s.fillColor := rfl
@[simp] theorem pipelineFillDone_cycleMode (s : State) (r : RawRect) :
    (s.pipelineFillDone r).cycleMode = s.cycleMode := rfl
@[simp] theorem pipelineFillDone_tmem (s : State) (r : RawRect) : (s.pipelineFillDone r).tmem = s.tmem := rfl
@[simp] theorem pipelineFillDone_faultLatch (s : State) (r : RawRect) :
    (s.pipelineFillDone r).faultLatch = s.faultLatch := rfl
@[simp] theorem pipelineFillDone_pp (s : State) (r : RawRect) : (s.pipelineFillDone r).pp = s.pp := rfl
@[simp] theorem pipelineFillDone_sysMem (s : State) (r : RawRect) :
    (s.pipelineFillDone r).sysMem = overwriteView s.sysMem (pipelineView s)
      (Config.fillRectWithPipeline (pipelineView s) r (pipelineColor s) s.pp (viewBytes s.sysMem (pipelineView s))) := rfl
@[simp] theorem pipelineFillDone_params (s : State) (r : RawRect) : (s.pipelineFillDone r).params = s.params := rfl
@[simp] theorem pipelineFillDone_cmdIn (s : State) (r : RawRect) : (s.pipelineFillDone r).cmdIn = s.cmdIn := rfl
@[simp] theorem pipelineFillDone_events (s : State) (r : RawRect) :
    (s.pipelineFillDone r).events = s.events ++ [.mem (.write s.fb.dramAddr.toNat)] ++
      [.fillRectWithPipeline (pipelineView s) r (pipelineColor s) s.pp] := rfl
@[simp] theorem pipelineFillDone_outcome (s : State) (r : RawRect) :
    (s.pipelineFillDone r).outcome = s.outcome := rfl

/-! ### The MEM transactions among the events (R9, R73) -/

@[simp] theorem memViews_emit (s : State) (es : List Event) :
    (s.emit es).memViews = s.memViews ++ es.filterMap Event.memView := by simp [State.memViews]

/-- The views depend on the events alone. -/
theorem memViews_congr {s t : State} (h : t.events = s.events) : t.memViews = s.memViews := by simp [State.memViews, h]

@[simp] theorem memViews_obtain (s : State) (v : MemView) : (s.obtain v).memViews = s.memViews ++ [v] :=
  memViews_emit s [.mem v]
@[simp] theorem memViews_setTile (s : State) (i : BitVec 3) (t : Tile) : (s.setTile i t).memViews = s.memViews := rfl
@[simp] theorem memViews_setTileFormat (s : State) (i : BitVec 3) (f : TileFormat) :
    (s.setTileFormat i f).memViews = s.memViews := rfl
@[simp] theorem memViews_setTileRect (s : State) (i : BitVec 3) (r : TileRect) :
    (s.setTileRect i r).memViews = s.memViews := rfl
@[simp] theorem memViews_raised (s : State) (f : FaultReport) : (s.raised f).memViews = s.memViews := by
  simp [State.memViews, Event.memView]
@[simp] theorem memViews_append (s : State) (w : Word) (h : s.cmdlen < 16) : (s.append w h).memViews = [] := rfl
@[simp] theorem memViews_loadDone (s : State) (i : BitVec 3) (r : TileRect) :
    (s.loadDone i r).memViews = s.memViews ++ [.read s.tex.dramAddr.toNat] := by simp [State.memViews, Event.memView]
@[simp] theorem memViews_drawDone (s : State) (i : BitVec 3) (r : RawRect) (b d : CoordPair) :
    (s.drawDone i r b d).memViews = s.memViews ++ [.write s.fb.dramAddr.toNat] := by
  simp [State.memViews, Event.memView]
@[simp] theorem memViews_flatFillDone (s : State) (r : RawRect) :
    (s.flatFillDone r).memViews = s.memViews ++ [.write s.fb.dramAddr.toNat] := by simp [State.memViews, Event.memView]
@[simp] theorem memViews_pipelineFillDone (s : State) (r : RawRect) :
    (s.pipelineFillDone r).memViews = s.memViews ++ [.write s.fb.dramAddr.toNat] := by
  simp [State.memViews, Event.memView]

/-! ### The tile file -/

theorem tile_eq (s : State) (i : BitVec 3) : s.tile i = s.tiles[i.toNat]'i.isLt := rfl

/-- A tile depends on the tile file alone. -/
theorem tile_congr {s t : State} (h : t.tiles = s.tiles) (i : BitVec 3) : t.tile i = s.tile i := by
  simp [tile_eq, h]

@[simp] theorem tile_setTile_same (s : State) (i : BitVec 3) (t : Tile) : (s.setTile i t).tile i = t := by
  simp [tile_eq]

/-- "No command writes a tile other than the one its 3-bit index names" (R36). -/
theorem tile_setTile_ne (s : State) {i j : BitVec 3} (t : Tile) (h : j ≠ i) : (s.setTile i t).tile j = s.tile j := by
  have : i.toNat ≠ j.toNat := fun e => h (BitVec.eq_of_toNat_eq e.symm)
  simp [tile_eq, Vector.getElem_set_ne, this]

@[simp] theorem tile_setTileFormat_same (s : State) (i : BitVec 3) (f : TileFormat) :
    (s.setTileFormat i f).tile i = ⟨f, (s.tile i).rect⟩ := tile_setTile_same s i _

@[simp] theorem tile_setTileRect_same (s : State) (i : BitVec 3) (r : TileRect) :
    (s.setTileRect i r).tile i = ⟨(s.tile i).format, r⟩ := tile_setTile_same s i _

theorem tile_setTileFormat_ne (s : State) {i j : BitVec 3} (f : TileFormat) (h : j ≠ i) :
    (s.setTileFormat i f).tile j = s.tile j := tile_setTile_ne s _ h

theorem tile_setTileRect_ne (s : State) {i j : BitVec 3} (r : TileRect) (h : j ≠ i) :
    (s.setTileRect i r).tile j = s.tile j := tile_setTile_ne s _ h

@[simp] theorem tile_emit (s : State) (es : List Event) (i : BitVec 3) : (s.emit es).tile i = s.tile i := rfl
@[simp] theorem tile_obtain (s : State) (v : MemView) (i : BitVec 3) : (s.obtain v).tile i = s.tile i := rfl
@[simp] theorem tile_raised (s : State) (f : FaultReport) (i : BitVec 3) : (s.raised f).tile i = s.tile i := rfl
@[simp] theorem tile_append (s : State) (w : Word) (h : s.cmdlen < 16) (i : BitVec 3) :
    (s.append w h).tile i = s.tile i := rfl
@[simp] theorem tile_loadDone (s : State) (i : BitVec 3) (r : TileRect) (j : BitVec 3) :
    (s.loadDone i r).tile j = s.tile j := rfl

end Sys2Proof.Machine
end

