-- ==== Sys2Proof/Laws/Exec.lean ====
section
/-! SUPPORT. What each handler, the dispatcher and `submit` can do, said once: if it answers a next state, then one of
the listed cases holds. -/

namespace Sys2Proof.Machine

/-! ### Handlers -/

/-- Everything the checked part of Load Tile can do when it answers a next state (R190, R265). -/
theorem loadTexels_next {i : BitVec 3} {r : TileRect} {s t : State} (h : loadTexels i r s = .next t) :
    inverted r = false ∧
      ((loadable (s.tile i).format.bpp s.tex.bpp = false ∧
          t = s.raised (.loadTileBpp i (s.tile i).format.bpp s.tex.bpp)) ∨
       (loadable (s.tile i).format.bpp s.tex.bpp = true ∧ loadFits s i r = true ∧
         ((∃ a, loadUnresolved s r = some a ∧ t = s.raised (.mem a)) ∨
          (loadUnresolved s r = none ∧ t = s.loadDone i r)))) := by
  unfold loadTexels raise at h
  split at h
  · cases h
  · rename_i h1
    refine ⟨by simpa using h1, ?_⟩
    split at h
    · rename_i h2; cases h; exact .inl ⟨by simpa using h2, rfl⟩
    · rename_i h2
      split at h
      · cases h
      · rename_i h3
        refine .inr ⟨by simpa using h2, by simpa using h3, ?_⟩
        split at h <;> cases h
        · exact .inl ⟨_, ‹_›, rfl⟩
        · exact .inr ⟨‹_›, rfl⟩

/-- Everything Texture Rectangle can do when it answers a next state (R210, R265). -/
theorem execTextureRectangle_next {x1 y1 : BitVec 12} {i : BitVec 3} {x0 y0 : BitVec 12} {sc tc dsdx dtdy : BitVec 16}
    {s t : State} (h : execTextureRectangle x1 y1 i x0 y0 sc tc dsdx dtdy s = .next t) :
    degenerate s x0 y0 x1 y1 = false ∧ inverted (s.tile i).rect = false ∧ drawFits s i = true ∧
      ((∃ a, drawUnresolved s = some a ∧ t = s.raised (.mem a)) ∨
       (drawUnresolved s = none ∧ t = s.drawDone i (drawDstRect s x0 y0 x1 y1) ⟨texCoord sc, texCoord tc⟩
          ⟨texCoord dsdx, texCoord dtdy⟩)) := by
  unfold execTextureRectangle raise at h
  split at h
  · cases h
  · rename_i h1
    split at h
    · cases h
    · rename_i h2
      split at h
      · cases h
      · rename_i h3
        refine ⟨by simpa using h1, by simpa using h2, by simpa using h3, ?_⟩
        split at h <;> cases h
        · exact .inl ⟨_, ‹_›, rfl⟩
        · exact .inr ⟨‹_›, rfl⟩

theorem flatFill_next {r : RawRect} {s t : State} (h : flatFill r s = .next t) :
    (∃ a, fillUnresolved s r = some a ∧ t = s.raised (.mem a)) ∨
      (fillUnresolved s r = none ∧ t = s.flatFillDone r) := by
  unfold flatFill raise at h
  split at h <;> cases h
  · exact .inl ⟨_, ‹_›, rfl⟩
  · exact .inr ⟨‹_›, rfl⟩

theorem pipelineFill_next {r : RawRect} {s t : State} (h : pipelineFill r s = .next t) :
    (∃ a, pipelineUnresolved s = some a ∧ t = s.raised (.mem a)) ∨
      (pipelineUnresolved s = none ∧ t = s.pipelineFillDone r) := by
  unfold pipelineFill raise at h
  split at h <;> cases h
  · exact .inl ⟨_, ‹_›, rfl⟩
  · exact .inr ⟨‹_›, rfl⟩

/-- The part modes Fill and One share (R230, R265). -/
theorem checkedFill_next {raw : RawRect} {fill : RawRect → State → Host.Outcome State Fault Refusal} {s t : State}
    (h : checkedFill raw fill s = .next t) :
    (aligned (bppConv s.fb.bpp) raw.x0 raw.x1 = false ∧
        t = s.raised (.fillAlign raw.x0 raw.x1 (bppConv s.fb.bpp))) ∨
      (aligned (bppConv s.fb.bpp) raw.x0 raw.x1 = true ∧ raw.x0 ≤ raw.x1 ∧ raw.y0 ≤ raw.y1 ∧
        underflows (bppConv s.fb.bpp) raw = false ∧ wholePixels (rescale (bppConv s.fb.bpp) raw) = true ∧
        outsideWork (rescale (bppConv s.fb.bpp) raw) = false ∧ fill (rescale (bppConv s.fb.bpp) raw) s = .next t) := by
  unfold checkedFill raise at h
  simp only at h
  split at h
  · rename_i h1; cases h; exact .inl ⟨by simpa using h1, rfl⟩
  · rename_i h1
    split at h
    · cases h
    · rename_i h2
      split at h
      · cases h
      · rename_i h3
        split at h
        · cases h
        · rename_i h4
          split at h
          · cases h
          · rename_i h5
            simp at h2
            exact .inr ⟨by simpa using h1, h2.1, h2.2, by simpa using h3, by simpa using h4, by simpa using h5, h⟩

/-- Everything Fill Rectangle can do when it answers a next state (R230 to R240). -/
theorem execFillRectangle_next {x1 y1 x0 y0 : BitVec 12} {s t : State}
    (h : execFillRectangle x1 y1 x0 y0 s = .next t) :
    (∃ m, (m = .two ∨ m = .copy) ∧ s.cycleMode = m ∧ t = s.raised (.fillMode m)) ∨
      (s.cycleMode = .fill ∧ checkedFill (fillFields x1 y1 x0 y0) flatFill s = .next t) ∨
      (s.cycleMode = .one ∧ checkedFill (fillFields x1 y1 x0 y0) pipelineFill s = .next t) := by
  unfold execFillRectangle raise at h
  split at h
  · cases h; exact .inl ⟨.two, .inl rfl, ‹_›, rfl⟩
  · cases h; exact .inl ⟨.copy, .inr rfl, ‹_›, rfl⟩
  · exact .inr (.inl ⟨‹_›, h⟩)
  · exact .inr (.inr ⟨‹_›, h⟩)

/-- No handler touches the pending buffer, the command input or the parameters: the assembler alone does (R39). -/
theorem exec_keeps {i : Instr} {s t : State} (h : exec i s = .next t) :
    t.cmdbuf = s.cmdbuf ∧ t.cmdlen = s.cmdlen ∧ t.cmdIn = s.cmdIn ∧ t.params = s.params := by
  cases i with
  | textureRectangle =>
    obtain ⟨-, -, -, ⟨a, -, rfl⟩ | ⟨-, rfl⟩⟩ := execTextureRectangle_next h <;> exact ⟨rfl, rfl, rfl, rfl⟩
  | loadTile =>
    obtain ⟨-, ⟨-, rfl⟩ | ⟨-, -, ⟨a, -, rfl⟩ | ⟨-, rfl⟩⟩⟩ := loadTexels_next h <;> exact ⟨rfl, rfl, rfl, rfl⟩
  | fillRectangle =>
    obtain ⟨m, -, -, rfl⟩ | ⟨-, h⟩ | ⟨-, h⟩ := execFillRectangle_next h
    · exact ⟨rfl, rfl, rfl, rfl⟩
    · obtain ⟨-, rfl⟩ | ⟨-, -, -, -, -, -, h⟩ := checkedFill_next h
      · exact ⟨rfl, rfl, rfl, rfl⟩
      · obtain ⟨a, -, rfl⟩ | ⟨-, rfl⟩ := flatFill_next h <;> exact ⟨rfl, rfl, rfl, rfl⟩
    · obtain ⟨-, rfl⟩ | ⟨-, -, -, -, -, -, h⟩ := checkedFill_next h
      · exact ⟨rfl, rfl, rfl, rfl⟩
      · obtain ⟨a, -, rfl⟩ | ⟨-, rfl⟩ := pipelineFill_next h <;> exact ⟨rfl, rfl, rfl, rfl⟩
  | syncTile => cases h; exact ⟨rfl, rfl, rfl, rfl⟩
  | setScissor => cases h; exact ⟨rfl, rfl, rfl, rfl⟩
  | setOtherModes => cases h; exact ⟨rfl, rfl, rfl, rfl⟩
  | setTile => cases h; exact ⟨rfl, rfl, rfl, rfl⟩
  | setFillColor => cases h; exact ⟨rfl, rfl, rfl, rfl⟩
  | setBlendColor => cases h; exact ⟨rfl, rfl, rfl, rfl⟩
  | setCombineMode => cases h; exact ⟨rfl, rfl, rfl, rfl⟩
  | setTextureImage => cases h; exact ⟨rfl, rfl, rfl, rfl⟩
  | setColorImage => cases h; exact ⟨rfl, rfl, rfl, rfl⟩

/-- An event of the register setters: no MEM transaction, no request on RAST, no FAULT. -/
theorem formatDiag_quiet (fmt : BitVec 3) :
    ∀ e ∈ formatDiag fmt, e.memView = none ∧ e.isRaster = false ∧ ∀ f, e ≠ .fault f := by
  intro e he
  unfold formatDiag at he
  split at he
  · cases he
  · obtain rfl : e = .unknownFormat fmt := by simpa using he
    exact ⟨rfl, rfl, nofun⟩

/-- Everything a command emits when it answers a next state (R9): a register setter no transaction, request or fault; a
drawing command one fault alone, or its view on MEM and then its request on RAST. -/
theorem exec_events {i : Instr} {s t : State} (h : exec i s = .next t) :
    ∃ es, t.events = s.events ++ es ∧
      ((t.outcome = s.outcome ∧ ∀ e ∈ es, e.memView = none ∧ e.isRaster = false ∧ ∀ f, e ≠ .fault f) ∨
       (∃ f : FaultReport, es = [.fault f] ∧ t.outcome = .fault f.kind) ∨
       (t.outcome = s.outcome ∧ i.opcode = 0x34 ∧
         ∃ r : Event, r.isRaster = true ∧ es = [.mem (.read s.tex.dramAddr.toNat), r]) ∨
       (t.outcome = s.outcome ∧ (i.opcode = 0x24 ∨ i.opcode = 0x36) ∧
         ∃ r : Event, r.isRaster = true ∧ es = [.mem (.write s.fb.dramAddr.toNat), r])) := by
  cases i with
  | textureRectangle =>
    obtain ⟨-, -, -, ⟨a, -, rfl⟩ | ⟨-, rfl⟩⟩ := execTextureRectangle_next h
    · exact ⟨_, rfl, .inr (.inl ⟨_, rfl, rfl⟩)⟩
    · exact ⟨_, List.append_assoc .., .inr (.inr (.inr ⟨rfl, .inl rfl, .drawRectWithSlopes .., rfl, rfl⟩))⟩
  | loadTile =>
    obtain ⟨-, ⟨-, rfl⟩ | ⟨-, -, ⟨a, -, rfl⟩ | ⟨-, rfl⟩⟩⟩ := loadTexels_next h
    · exact ⟨_, rfl, .inr (.inl ⟨_, rfl, rfl⟩)⟩
    · exact ⟨_, rfl, .inr (.inl ⟨_, rfl, rfl⟩)⟩
    · exact ⟨_, List.append_assoc .., .inr (.inr (.inl ⟨rfl, rfl, .copyRect .., rfl, rfl⟩))⟩
  | fillRectangle =>
    obtain ⟨m, -, -, rfl⟩ | ⟨-, h⟩ | ⟨-, h⟩ := execFillRectangle_next h
    · exact ⟨_, rfl, .inr (.inl ⟨_, rfl, rfl⟩)⟩
    · obtain ⟨-, rfl⟩ | ⟨-, -, -, -, -, -, h⟩ := checkedFill_next h
      · exact ⟨_, rfl, .inr (.inl ⟨_, rfl, rfl⟩)⟩
      · obtain ⟨a, -, rfl⟩ | ⟨-, rfl⟩ := flatFill_next h
        · exact ⟨_, rfl, .inr (.inl ⟨_, rfl, rfl⟩)⟩
        · exact ⟨_, List.append_assoc .., .inr (.inr (.inr ⟨rfl, .inr rfl, .fillRect .., rfl, rfl⟩))⟩
    · obtain ⟨-, rfl⟩ | ⟨-, -, -, -, -, -, h⟩ := checkedFill_next h
      · exact ⟨_, rfl, .inr (.inl ⟨_, rfl, rfl⟩)⟩
      · obtain ⟨a, -, rfl⟩ | ⟨-, rfl⟩ := pipelineFill_next h
        · exact ⟨_, rfl, .inr (.inl ⟨_, rfl, rfl⟩)⟩
        · exact ⟨_, List.append_assoc .., .inr (.inr (.inr ⟨rfl, .inr rfl, .fillRectWithPipeline .., rfl, rfl⟩))⟩
  | syncTile => cases h; exact ⟨[], by simp, .inl ⟨rfl, by simp⟩⟩
  | setScissor => cases h; exact ⟨[], by simp, .inl ⟨rfl, by simp⟩⟩
  | setFillColor => cases h; exact ⟨[], by simp, .inl ⟨rfl, by simp⟩⟩
  | setOtherModes => cases h; exact ⟨_, rfl, .inl ⟨rfl, by simp [Event.memView, Event.isRaster]⟩⟩
  | setCombineMode => cases h; exact ⟨_, rfl, .inl ⟨rfl, by simp [Event.memView, Event.isRaster]⟩⟩
  | setBlendColor => cases h; exact ⟨_, rfl, .inl ⟨rfl, by simp [Event.memView, Event.isRaster]⟩⟩
  | setTile fmt => cases h; exact ⟨_, rfl, .inl ⟨rfl, formatDiag_quiet fmt⟩⟩
  | setTextureImage fmt => cases h; exact ⟨_, rfl, .inl ⟨rfl, formatDiag_quiet fmt⟩⟩
  | setColorImage fmt => cases h; exact ⟨_, rfl, .inl ⟨rfl, formatDiag_quiet fmt⟩⟩

/-! ### The word set and the opcode map -/

/-- The second word is read for Texture Rectangle only (R146). -/
theorem decodeWords_second {w0 : Word} (w1 w1' : Word) (h : opcodeOf w0 ≠ 0x24#6) :
    decodeWords w0 w1 = decodeWords w0 w1' := by
  unfold decodeWords
  split
  · rename_i he
    exact absurd (BitVec.eq_of_toNat_eq he) h
  all_goals rfl

theorem words_eq_one {op : BitVec 6} (h : op ≠ 0x24#6) : words op = 1 := by simp [words, h]

theorem words_cases (op : BitVec 6) : words op = 1 ∨ words op = 2 := by unfold words; split <;> simp

/-- Every rejection of a full word set is an unknown opcode (R128(e)). -/
theorem decodeWords_error {w0 w1 : Word} {r : DecodeReject} (h : decodeWords w0 w1 = .error r) :
    r = .unknownOpcode (opcodeOf w0) := by
  unfold decodeWords at h
  split at h <;> cases h
  rfl

/-! ### The assembler -/

theorem append_word0 {s : State} (w : Word) (h : s.cmdlen < 16) (h0 : s.cmdlen = 0) : (s.append w h).word0 = w := by
  simp [State.word0, h0]

theorem append_word0_pending {s : State} (w : Word) (h : s.cmdlen < 16) (h0 : s.cmdlen ≠ 0) :
    (s.append w h).word0 = s.word0 := by
  simp [State.word0, Vector.getElem_set_ne, h0]

theorem append_word1 {s : State} (w : Word) (h : s.cmdlen < 16) (h0 : s.cmdlen = 1) : (s.append w h).word1 = w := by
  simp [State.word1, h0]

/-- `append` at a command boundary, with the length it is cleared to again. -/
theorem taken_eq {s : State} (w : Word) (h : s.cmdlen < 16) (h0 : s.cmdlen = 0) :
    { s.append w h with cmdlen := 0 } = s.taken w := by
  simp [State.append, State.taken, h0]

/-- Everything `submit` can do when it answers a next state (R143, R145, R148). -/
theorem submit_next {w : Word} {s t : State} (h : submit w s = .next t) :
    ∃ hl : s.cmdlen < 16,
      ((s.append w hl).waits = true ∧ t = s.append w hl) ∨
      ((s.append w hl).waits = false ∧ ∃ u, dispatch (s.append w hl) = .next u ∧ t = { u with cmdlen := 0 }) := by
  unfold submit at h
  split at h
  · rename_i hl
    refine ⟨hl, ?_⟩
    split at h
    · cases h; exact .inl ⟨‹_›, rfl⟩
    · rename_i hw
      refine .inr ⟨by simpa using hw, ?_⟩
      cases hd : dispatch (s.append w hl) with
      | next u => rw [hd] at h; cases h; exact ⟨u, rfl, rfl⟩
      | fault e => rw [hd] at h; cases h
      | refused r => rw [hd] at h; cases h
  · cases h

/-- Everything the dispatcher can do when it answers a next state (R146, R147). -/
theorem dispatch_next {s t : State} (h : dispatch s = .next t) :
    (∃ i, decodeWords s.word0 s.word1 = .ok i ∧ exec i s = .next t) ∨
      t = s.emit [.unknownOpcode (opcodeOf s.word0)] := by
  unfold dispatch at h
  cases hd : decodeWords s.word0 s.word1 with
  | ok i => rw [hd] at h; exact .inl ⟨i, rfl, h⟩
  | error r =>
    rw [hd] at h
    obtain rfl := decodeWords_error hd
    cases h; exact .inr rfl

/-- A one-word command at a boundary runs at once (R143). -/
theorem submit_one {w : Word} {s : State} (h0 : s.cmdlen = 0) (hop : opcodeOf w ≠ 0x24#6) :
    submit w s = complete (dispatch (s.append w (by omega))) := by
  have hl : s.cmdlen < 16 := by omega
  have hw : (s.append w hl).waits = false := by
    simp [State.waits, append_word0 w hl h0, words_eq_one hop, h0]
  simp [submit, hl, hw]

/-- The dispatcher runs the decoded instruction (R146). -/
theorem dispatch_ok {s : State} {i : Instr} (h : decodeWords s.word0 s.word1 = .ok i) : dispatch s = exec i s := by
  simp [dispatch, h]

/-- A one-word command at a boundary: its handler runs on the buffered word, then the length is cleared. -/
theorem submit_one_ok {w : Word} {s : State} {i : Instr} (h0 : s.cmdlen = 0) (hop : opcodeOf w ≠ 0x24#6)
    (hd : decodeWords w 0 = .ok i) : submit w s = complete (exec i (s.append w (by omega))) := by
  rw [submit_one h0 hop, dispatch_ok]
  rw [append_word0 w _ h0, decodeWords_second _ 0 hop, hd]

/-- What one command of CMD_IN does to the machine is what `submit` does (R79). -/
theorem step_next {s t : State} (h : step s = .next t) :
    (s.cmdIn = [] ∧ t = s) ∨ ∃ w rest, s.cmdIn = w :: rest ∧ submit w { s with cmdIn := rest } = .next t := by
  unfold step at h
  split at h
  · cases h; exact .inl ⟨‹_›, rfl⟩
  · exact .inr ⟨_, _, ‹_›, h⟩

end Sys2Proof.Machine
end

