-- ==== Sys2Proof/Laws/Memory.lean ====
section
/-! SUPPORT. The laws of the byte-memory operations: read after write, frames, and the canonical form kept. -/

namespace Sys2Proof.Machine

/-! ### One byte -/

theorem readByte_eq_unlisted (m : List Host.Cell) (a : Nat) (h : ∀ c ∈ m, c.1 ≠ a) : readByte m a = unlistedByte := by
  induction m with
  | nil => rfl
  | cons c m ih =>
    obtain ⟨k, v⟩ := c
    have hk : k ≠ a := h (k, v) (by simp)
    simp only [readByte, if_neg hk]
    exact ih fun c hc => h c (by simp [hc])

theorem readByte_filter_ne (m : List Host.Cell) {a k : Nat} (h : k ≠ a) :
    readByte (m.filter fun c => c.1 != a) k = readByte m k := by
  induction m with
  | nil => rfl
  | cons c m ih =>
    obtain ⟨j, v⟩ := c
    by_cases hj : j = a
    · subst hj
      have : ¬ j = k := fun e => h e.symm
      simp [readByte, ih, this]
    · simp [readByte, ih, hj]

theorem readByte_insertCell (m : List Host.Cell) (a k : Nat) (b : Byte) (h : ∀ c ∈ m, c.1 ≠ a) :
    readByte (insertCell m a b) k = if k = a then b else readByte m k := by
  induction m with
  | nil =>
    by_cases hk : k = a
    · simp [insertCell, readByte, hk]
    · simp [insertCell, readByte, hk, Ne.symm hk]
  | cons c m ih =>
    obtain ⟨j, v⟩ := c
    have hj : j ≠ a := h (j, v) (by simp)
    have ih' := ih fun c hc => h c (by simp [hc])
    unfold insertCell
    split
    · by_cases hk : k = a
      · simp [readByte, hk]
      · simp [readByte, hk, Ne.symm hk]
    · by_cases hjk : j = k
      · subst hjk; simp [readByte, hj]
      · simp [readByte, hjk, ih']

/-- Read after write of one byte. -/
theorem readByte_writeByte (m : List Host.Cell) (a k : Nat) (b : Byte) :
    readByte (writeByte m a b) k = if k = a then b else readByte m k := by
  have hf : ∀ c ∈ m.filter (fun c => c.1 != a), c.1 ≠ a := by
    intro c hc; simpa using (List.mem_filter.mp hc).2
  unfold writeByte
  split
  · rename_i hb
    by_cases hk : k = a
    · subst hk; simp [readByte_eq_unlisted _ _ hf, hb]
    · simp [hk, readByte_filter_ne m hk]
  · rw [readByte_insertCell _ _ _ _ hf]
    by_cases hk : k = a
    · simp [hk]
    · simp [hk, readByte_filter_ne m hk]

/-! ### The canonical form -/

theorem canonicalFrom_mono {lo hi : Nat} (h : lo ≤ hi) (m : List Host.Cell) (hm : canonicalFrom hi m = true) :
    canonicalFrom lo m = true := by
  cases m with
  | nil => rfl
  | cons c m =>
    obtain ⟨k, v⟩ := c
    simp only [canonicalFrom, Bool.and_eq_true, decide_eq_true_eq] at hm ⊢
    exact ⟨⟨by omega, hm.1.2⟩, hm.2⟩

theorem canonicalFrom_filter (p : Host.Cell → Bool) (m : List Host.Cell) (lo : Nat)
    (hm : canonicalFrom lo m = true) : canonicalFrom lo (m.filter p) = true := by
  induction m generalizing lo with
  | nil => rfl
  | cons c m ih =>
    obtain ⟨k, v⟩ := c
    simp only [canonicalFrom, Bool.and_eq_true, decide_eq_true_eq] at hm
    by_cases hp : p (k, v)
    · simp only [List.filter_cons_of_pos hp, canonicalFrom, Bool.and_eq_true, decide_eq_true_eq]
      exact ⟨hm.1, ih _ hm.2⟩
    · rw [List.filter_cons_of_neg hp]
      exact canonicalFrom_mono (by omega) _ (ih _ hm.2)

theorem canonicalFrom_insertCell (m : List Host.Cell) (lo a : Nat) (b : Byte) (hb : b ≠ unlistedByte) (ha : lo ≤ a)
    (h : ∀ c ∈ m, c.1 ≠ a) (hm : canonicalFrom lo m = true) : canonicalFrom lo (insertCell m a b) = true := by
  induction m generalizing lo with
  | nil => simp [insertCell, canonicalFrom, ha, hb]
  | cons c m ih =>
    obtain ⟨k, v⟩ := c
    have hk : k ≠ a := h (k, v) (by simp)
    simp only [canonicalFrom, Bool.and_eq_true, decide_eq_true_eq] at hm
    unfold insertCell
    split
    · rename_i hlt
      simp only [canonicalFrom, Bool.and_eq_true, decide_eq_true_eq, bne_iff_ne, ne_eq]
      exact ⟨⟨ha, hb⟩, ⟨by omega, by simpa using hm.1.2⟩, hm.2⟩
    · simp only [canonicalFrom, Bool.and_eq_true, decide_eq_true_eq]
      exact ⟨hm.1, ih _ (by omega) (fun c hc => h c (by simp [hc])) hm.2⟩

/-- A write keeps the canonical form. -/
theorem wf_writeByte (m : List Host.Cell) (a : Nat) (b : Byte) (hm : Memory.wf m = true) :
    Memory.wf (writeByte m a b) = true := by
  have hf : ∀ c ∈ m.filter (fun c => c.1 != a), c.1 ≠ a := by
    intro c hc; simpa using (List.mem_filter.mp hc).2
  unfold writeByte Memory.wf
  split
  · exact canonicalFrom_filter _ _ _ hm
  · exact canonicalFrom_insertCell _ _ _ _ ‹_› (by omega) hf (canonicalFrom_filter _ _ _ hm)

theorem wf_writeBytes (bs : List Byte) (m : List Host.Cell) (a : Nat) (hm : Memory.wf m = true) :
    Memory.wf (writeBytes m a bs) = true := by
  induction bs generalizing m a with
  | nil => exact hm
  | cons b bs ih => exact ih _ _ (wf_writeByte _ _ _ hm)

theorem wf_writeRows (rows : List (List Byte)) (m : List Host.Cell) (a pitch : Nat) (hm : Memory.wf m = true) :
    Memory.wf (writeRows m a pitch rows) = true := by
  induction rows generalizing m a with
  | nil => exact hm
  | cons r rows ih => exact ih _ _ (wf_writeBytes _ _ _ hm)

theorem wf_copyRect (dst src : List Host.Cell) (D S : View) (cw h s0 t0 : Nat) (hm : Memory.wf dst = true) :
    Memory.wf (copyRect dst src D S cw h s0 t0) = true := wf_writeRows _ _ _ _ hm

theorem wf_fillRect (m : List Host.Cell) (D : View) (r : RawRect) (c : BitVec 32) (hm : Memory.wf m = true) :
    Memory.wf (fillRect m D r c) = true := wf_writeRows _ _ _ _ hm

theorem wf_overwriteView (m : List Host.Cell) (v : View) (new : Nat → Byte) (hm : Memory.wf m = true) :
    Memory.wf (overwriteView m v new) = true := wf_writeBytes _ _ _ hm

theorem wf_reset : Memory.wf State.reset.sysMem = true ∧ Memory.wf State.reset.tmem = true := by decide

/-! ### Bytes in a row -/

theorem length_readBytes (m : List Host.Cell) (a n : Nat) : (readBytes m a n).length = n := by simp [readBytes]

theorem getElem?_readBytes (m : List Host.Cell) (a n k : Nat) (h : k < n) :
    (readBytes m a n)[k]? = some (readByte m (a + k)) := by simp [readBytes, h]

/-- A byte outside the written run reads as before. -/
theorem readByte_writeBytes_outside (bs : List Byte) (m : List Host.Cell) (a k : Nat)
    (h : k < a ∨ a + bs.length ≤ k) : readByte (writeBytes m a bs) k = readByte m k := by
  induction bs generalizing m a with
  | nil => rfl
  | cons b bs ih =>
    simp only [List.length_cons] at h
    rw [writeBytes, ih _ _ (by omega), readByte_writeByte, if_neg (by omega)]

/-- Byte `j` of the written run. -/
theorem readByte_writeBytes_inside (bs : List Byte) (m : List Host.Cell) (a j : Nat) (b : Byte)
    (h : bs[j]? = some b) : readByte (writeBytes m a bs) (a + j) = b := by
  induction bs generalizing m a j with
  | nil => simp at h
  | cons c bs ih =>
    cases j with
    | zero =>
      obtain rfl : c = b := by simpa using h
      rw [writeBytes, readByte_writeBytes_outside _ _ _ _ (by omega), readByte_writeByte]
      simp
    | succ j =>
      rw [writeBytes, show a + (j + 1) = a + 1 + j by omega]
      exact ih _ _ _ (by simpa using h)

/-! ### Rows -/

/-- A byte in no row reads as before. -/
theorem readByte_writeRows_outside (rows : List (List Byte)) (m : List Host.Cell) (a pitch k : Nat)
    (h : ∀ j row, rows[j]? = some row → k < a + j * pitch ∨ a + j * pitch + row.length ≤ k) :
    readByte (writeRows m a pitch rows) k = readByte m k := by
  induction rows generalizing m a with
  | nil => rfl
  | cons r rows ih =>
    rw [writeRows, ih, readByte_writeBytes_outside]
    · simpa using h 0 r (by simp)
    · intro j row hj
      have := h (j + 1) row (by simpa using hj)
      rw [Nat.add_mul, Nat.one_mul] at this
      omega

/-- Byte `k` of row `j`, where no later row covers its address: the last writer wins (R86). -/
theorem readByte_writeRows_last (rows : List (List Byte)) (m : List Host.Cell) (a pitch j k : Nat) (row : List Byte)
    (b : Byte) (hrow : rows[j]? = some row) (hb : row[k]? = some b)
    (h : ∀ j' row', j < j' → rows[j']? = some row' →
      a + j * pitch + k < a + j' * pitch ∨ a + j' * pitch + row'.length ≤ a + j * pitch + k) :
    readByte (writeRows m a pitch rows) (a + j * pitch + k) = b := by
  induction rows generalizing m a j with
  | nil => simp at hrow
  | cons r rows ih =>
    cases j with
    | zero =>
      obtain rfl : r = row := by simpa using hrow
      rw [writeRows, readByte_writeRows_outside, Nat.zero_mul, Nat.add_zero, readByte_writeBytes_inside _ _ _ _ _ hb]
      intro j' row' hj'
      have := h (j' + 1) row' (by omega) (by simpa using hj')
      rw [Nat.add_mul, Nat.one_mul] at this
      omega
    | succ j =>
      rw [writeRows, show a + (j + 1) * pitch + k = a + pitch + j * pitch + k by rw [Nat.add_mul]; omega]
      refine ih _ _ _ (by simpa using hrow) fun j' row' hj hj' => ?_
      have := h (j' + 1) row' (by omega) (by simpa using hj')
      rw [Nat.add_mul, Nat.add_mul, Nat.one_mul] at this
      omega

/-! ### The raster routines -/

theorem getElem?_sourceRows (src : List Host.Cell) (S : View) (cw h s0 t0 j : Nat) (hj : j < h) :
    (sourceRows src S cw h s0 t0)[j]? = some (readBytes src
      (S.base + (t0 + j) * S.pitch + s0 * texelBytes S.bpp) (cw * texelBytes S.bpp)) := by
  simp [sourceRows, hj]

theorem sourceRows_length (src : List Host.Cell) (S : View) (cw h s0 t0 j : Nat) (row : List Byte)
    (hj : (sourceRows src S cw h s0 t0)[j]? = some row) : j < h ∧ row.length = cw * texelBytes S.bpp := by
  have hlt : j < h := by
    have := (List.getElem?_eq_some_iff.mp hj).1
    simpa [sourceRows] using this
  rw [getElem?_sourceRows _ _ _ _ _ _ _ hlt] at hj
  exact ⟨hlt, by rw [← Option.some.inj hj, length_readBytes]⟩

/-- `copy_rect` leaves every byte outside its rows (R195: "every other tmem byte keeps its value"). -/
theorem readByte_copyRect_outside (dst src : List Host.Cell) (D S : View) (cw h s0 t0 a : Nat)
    (ha : ∀ j < h, a < D.base + j * D.pitch ∨ D.base + j * D.pitch + cw * texelBytes S.bpp ≤ a) :
    readByte (copyRect dst src D S cw h s0 t0) a = readByte dst a := by
  refine readByte_writeRows_outside _ _ _ _ _ fun j row hj => ?_
  obtain ⟨hlt, hlen⟩ := sourceRows_length _ _ _ _ _ _ _ _ hj
  rw [hlen]; exact ha j hlt

/-- `copy_rect` moves byte `k` of row `j` verbatim, where no later row overwrites it (R86). -/
theorem readByte_copyRect_last (dst src : List Host.Cell) (D S : View) (cw h s0 t0 j k : Nat) (hj : j < h)
    (hk : k < cw * texelBytes S.bpp) (hlast : ∀ j', j < j' → j' < h → D.base + j * D.pitch + k < D.base + j' * D.pitch) :
    readByte (copyRect dst src D S cw h s0 t0) (D.base + j * D.pitch + k) =
      readByte src (S.base + (t0 + j) * S.pitch + s0 * texelBytes S.bpp + k) := by
  refine readByte_writeRows_last _ _ _ _ _ _ _ _ (getElem?_sourceRows _ _ _ _ _ _ _ hj)
    (getElem?_readBytes _ _ _ _ hk) fun j' row' hlt hj' => .inl ?_
  exact hlast j' hlt (sourceRows_length _ _ _ _ _ _ _ _ hj').1

theorem length_pixelBytesBE (c : BitVec 32) : (pixelBytesBE c).length = 4 := rfl

theorem length_fillRow (n : Nat) (c : BitVec 32) : (List.replicate n (pixelBytesBE c)).flatten.length = n * 4 := by
  induction n with
  | zero => rfl
  | succ n ih => rw [List.replicate_succ, List.flatten_cons, List.length_append, ih, length_pixelBytesBE]; omega

theorem getElem?_fillRow (n : Nat) (c : BitVec 32) (i k : Nat) (hi : i < n) (hk : k < 4) :
    (List.replicate n (pixelBytesBE c)).flatten[i * 4 + k]? = (pixelBytesBE c)[k]? := by
  induction n generalizing i with
  | zero => omega
  | succ n ih =>
    rw [List.replicate_succ, List.flatten_cons]
    cases i with
    | zero => rw [List.getElem?_append_left (by rw [length_pixelBytesBE]; omega)]; congr 1; omega
    | succ i =>
      rw [List.getElem?_append_right (by rw [length_pixelBytesBE]; omega), length_pixelBytesBE,
        show (i + 1) * 4 + k - 4 = i * 4 + k by omega]
      exact ih i (by omega)

/-- The flat fill writes no byte outside its pixels (R87). -/
theorem readByte_fillRect_outside (m : List Host.Cell) (D : View) (r : RawRect) (c : BitVec 32) (a : Nat)
    (ha : ∀ j < fillRows r, a < fillStart D r + j * D.pitch ∨ fillStart D r + j * D.pitch + fillCols r * 4 ≤ a) :
    readByte (fillRect m D r c) a = readByte m a := by
  refine readByte_writeRows_outside _ _ _ _ _ fun j row hj => ?_
  obtain ⟨hlt, rfl⟩ : j < fillRows r ∧ (List.replicate (fillCols r) (pixelBytesBE c)).flatten = row := by
    obtain ⟨h1, h2⟩ := List.getElem?_eq_some_iff.mp hj
    exact ⟨by simpa using h1, by simpa using h2⟩
  rw [length_fillRow]; exact ha j hlt

/-- The byte the flat fill puts at offset `k` of a row: byte `k mod 4` of the colour, most significant first. -/
theorem getElem?_fillRow_mod (n : Nat) (c : BitVec 32) (k : Nat) (hk : k < n * 4) :
    (List.replicate n (pixelBytesBE c)).flatten[k]? = (pixelBytesBE c)[k % 4]? := by
  have := getElem?_fillRow n c (k / 4) (k % 4) (by omega) (by omega)
  rwa [show k / 4 * 4 + k % 4 = k by omega] at this

/-- Every byte of the filled rectangle holds the colour's byte, whatever rows overlap, as long as the rows are whole
words apart (R236). -/
theorem readByte_fillRect_inside (m : List Host.Cell) (D : View) (r : RawRect) (c : BitVec 32) (j k : Nat) (b : Byte)
    (hj : j < fillRows r) (hk : k < fillCols r * 4) (hb : (pixelBytesBE c)[k % 4]? = some b)
    (hlast : ∀ j', j < j' → j' < fillRows r → fillStart D r + j * D.pitch + k < fillStart D r + j' * D.pitch) :
    readByte (fillRect m D r c) (fillStart D r + j * D.pitch + k) = b := by
  refine readByte_writeRows_last _ _ _ _ _ _ (List.replicate (fillCols r) (pixelBytesBE c)).flatten b
    (by simp [hj]) (by rw [getElem?_fillRow_mod _ _ _ hk, hb]) fun j' row' hlt hj' => .inl ?_
  exact hlast j' hlt (by simpa using (List.getElem?_eq_some_iff.mp hj').1)

/-- An uninterpreted routine writes no byte outside its destination view's footprint (R85(b)). -/
theorem readByte_overwriteView_outside (m : List Host.Cell) (v : View) (new : Nat → Byte) (a : Nat)
    (h : a < v.base ∨ v.base + footprintLen v ≤ a) : readByte (overwriteView m v new) a = readByte m a :=
  readByte_writeBytes_outside _ _ _ _ (by simpa using h)

/-- Inside the footprint the byte is the routine's. -/
theorem readByte_overwriteView_inside (m : List Host.Cell) (v : View) (new : Nat → Byte) (k : Nat)
    (h : k < footprintLen v) : readByte (overwriteView m v new) (v.base + k) = new k :=
  readByte_writeBytes_inside _ _ _ _ _ (by simp [h])

/-- What a view shows is its bytes, no more (R85(a)). -/
theorem viewBytes_eq_iff {m n : List Host.Cell} {v : View} :
    viewBytes m v = viewBytes n v ↔ ∀ k < footprintLen v, readByte m (v.base + k) = readByte n (v.base + k) := by
  simp [viewBytes, readBytes]

/-- An overwritten view shows the routine's bytes. -/
theorem viewBytes_overwriteView (m : List Host.Cell) (v : View) (new : Nat → Byte) :
    viewBytes (overwriteView m v new) v = (List.range (footprintLen v)).map new := by
  simp only [viewBytes, readBytes, List.map_inj_left, List.mem_range]
  exact fun k hk => readByte_overwriteView_inside m v new k hk

/-! ### tmem's addresses -/

theorem mem_insertCell (m : List Host.Cell) (a : Nat) (b : Byte) (c : Host.Cell) (h : c ∈ insertCell m a b) :
    c = (a, b) ∨ c ∈ m := by
  induction m with
  | nil => simpa [insertCell] using h
  | cons d m ih =>
    obtain ⟨k, v⟩ := d
    unfold insertCell at h
    split at h
    · simpa using h
    · rcases List.mem_cons.mp h with h | h
      · simp [h]
      · rcases ih h with h | h <;> simp [h]

theorem tmemInRange_writeByte (m : List Host.Cell) (a : Nat) (b : Byte) (ha : a < tmemBytes)
    (hm : tmemInRange m = true) : tmemInRange (writeByte m a b) = true := by
  simp only [tmemInRange, List.all_eq_true, decide_eq_true_eq] at hm ⊢
  intro c hc
  unfold writeByte at hc
  split at hc
  · exact hm c (List.mem_filter.mp hc).1
  · rcases mem_insertCell _ _ _ _ hc with rfl | hc
    · exact ha
    · exact hm c (List.mem_filter.mp hc).1

theorem tmemInRange_writeBytes (bs : List Byte) (m : List Host.Cell) (a : Nat) (ha : a + bs.length ≤ tmemBytes)
    (hm : tmemInRange m = true) : tmemInRange (writeBytes m a bs) = true := by
  induction bs generalizing m a with
  | nil => exact hm
  | cons b bs ih =>
    simp only [List.length_cons] at ha
    exact ih _ _ (by omega) (tmemInRange_writeByte _ _ _ (by omega) hm)

theorem tmemInRange_writeRows (rows : List (List Byte)) (m : List Host.Cell) (a pitch : Nat)
    (h : ∀ j row, rows[j]? = some row → a + j * pitch + row.length ≤ tmemBytes) (hm : tmemInRange m = true) :
    tmemInRange (writeRows m a pitch rows) = true := by
  induction rows generalizing m a with
  | nil => exact hm
  | cons r rows ih =>
    refine ih _ _ (fun j row hj => ?_) (tmemInRange_writeBytes _ _ _ (by simpa using h 0 r (by simp)) hm)
    have := h (j + 1) row (by simpa using hj)
    rw [Nat.add_mul, Nat.one_mul] at this
    omega

end Sys2Proof.Machine
end

