-- ==== Sys2Proof/Laws/PerInstr.lean ====
section
/-! SUPPORT. One property of every instruction as syntax, proved constructor by constructor: an encoded instruction's
first word carries its opcode, and its words are as many as the opcode says (spec/30_encoding.md R110, R111, R129). -/

namespace Sys2Proof.Laws.FirstWord

open Sys2Proof.Machine

/-- The first word's opcode field is the instruction's opcode, and the number of words is `words(op)`. -/
def Statement (i : Instr) : Prop :=
  i.wellFormed = true →
    ∃ w0 rest, encode i = w0 :: rest ∧ opcodeOf w0 = i.opcode ∧ (encode i).length = words i.opcode

/-- An operand field below bit 56 leaves the opcode field 0. -/
theorem op_place {n : Nat} (v : BitVec n) (f : BitField n) (h : f.lo + n ≤ 56) : take (place v f) Layout.op = 0#6 :=
  take_place_other v f Layout.op (.inl h)

theorem textureRectangle (x1 y1 : BitVec 12) (tile : BitVec 3) (x0 y0 : BitVec 12) (s t dsdx dtdy : BitVec 16) :
    Statement (.textureRectangle x1 y1 tile x0 y0 s t dsdx dtdy) := by
  refine fun _ => ⟨_, _, rfl, ?_, rfl⟩
  simp (disch := decide) only [Instr.opcode, opcodeOf, take_or, take_place_same, op_place, BitVec.or_zero]

theorem syncTile : Statement .syncTile := fun _ => ⟨_, _, rfl, by decide, rfl⟩

theorem setScissor (x0 y0 x1 y1 : BitVec 12) : Statement (.setScissor x0 y0 x1 y1) := by
  refine fun _ => ⟨_, _, rfl, ?_, rfl⟩
  simp (disch := decide) only [Instr.opcode, opcodeOf, take_or, take_place_same, op_place, BitVec.or_zero]

theorem setOtherModes (cycle : BitVec 2) (raw : Word) : Statement (.setOtherModes cycle raw) := by
  intro h
  simp only [Instr.wellFormed, Bool.and_eq_true, beq_iff_eq] at h
  exact ⟨raw, [], rfl, h.1, rfl⟩

theorem loadTile (s0 t0 : BitVec 12) (tile : BitVec 3) (s1 t1 : BitVec 12) : Statement (.loadTile s0 t0 tile s1 t1) := by
  refine fun _ => ⟨_, _, rfl, ?_, rfl⟩
  simp (disch := decide) only [Instr.opcode, opcodeOf, take_or, take_place_same, op_place, BitVec.or_zero]

theorem setTile (fmt : BitVec 3) (size : BitVec 2) (line tmem : BitVec 9) (tile : BitVec 3) (palette : BitVec 4)
    (clampT mirrorT : BitVec 1) (maskT shiftT : BitVec 4) (clampS mirrorS : BitVec 1) (maskS shiftS : BitVec 4) :
    Statement (.setTile fmt size line tmem tile palette clampT mirrorT maskT shiftT clampS mirrorS maskS shiftS) := by
  refine fun _ => ⟨_, _, rfl, ?_, rfl⟩
  simp (disch := decide) only [Instr.opcode, opcodeOf, take_or, take_place_same, op_place, BitVec.or_zero]

theorem fillRectangle (x1 y1 x0 y0 : BitVec 12) : Statement (.fillRectangle x1 y1 x0 y0) := by
  refine fun _ => ⟨_, _, rfl, ?_, rfl⟩
  simp (disch := decide) only [Instr.opcode, opcodeOf, take_or, take_place_same, op_place, BitVec.or_zero]

theorem setFillColor (color : BitVec 32) : Statement (.setFillColor color) := by
  refine fun _ => ⟨_, _, rfl, ?_, rfl⟩
  simp (disch := decide) only [Instr.opcode, opcodeOf, take_or, take_place_same, op_place, BitVec.or_zero]

theorem setBlendColor (r g b a : BitVec 8) : Statement (.setBlendColor r g b a) := by
  refine fun _ => ⟨_, _, rfl, ?_, rfl⟩
  simp (disch := decide) only [Instr.opcode, opcodeOf, take_or, take_place_same, op_place, BitVec.or_zero]

theorem setCombineMode (raw : Word) : Statement (.setCombineMode raw) := by
  intro h
  simp only [Instr.wellFormed, beq_iff_eq] at h
  exact ⟨raw, [], rfl, h, rfl⟩

/-- The word the two image commands share. -/
theorem opcodeOf_encodeImage (op : BitVec 6) (fmt : BitVec 3) (size : BitVec 2) (width : BitVec 10)
    (addr : BitVec 26) : opcodeOf (encodeImage op fmt size width addr) = op := by
  simp (disch := decide) only [opcodeOf, encodeImage, take_or, take_place_same, op_place, BitVec.or_zero]

theorem setTextureImage (fmt : BitVec 3) (size : BitVec 2) (width : BitVec 10) (addr : BitVec 26) :
    Statement (.setTextureImage fmt size width addr) :=
  fun _ => ⟨_, _, rfl, opcodeOf_encodeImage _ _ _ _ _, rfl⟩

theorem setColorImage (fmt : BitVec 3) (size : BitVec 2) (width : BitVec 10) (addr : BitVec 26) :
    Statement (.setColorImage fmt size width addr) :=
  fun _ => ⟨_, _, rfl, opcodeOf_encodeImage _ _ _ _ _, rfl⟩

end Sys2Proof.Laws.FirstWord
end

