-- ==== Sys2Proof/Laws/Resolve.lean ====
section
/-! SUPPORT. What the resolution test answers: the lowest address that does not resolve, and none exactly where every
address resolves (spec/20_memory.md R77, spec/60_exceptions.md R260). -/

namespace Sys2Proof.Machine

theorem resolves_eq_true {map : List Region} {a : Nat} : resolves map a = true ↔ ∃ r ∈ map, regionHolds r a = true := by
  simp [resolves, List.any_eq_true]

/-- An unresolved address just above a resolved one is the end of a region. -/
theorem end_of_run {map : List Region} {a : Nat} (h : resolves map a = true) (h' : resolves map (a + 1) = false) :
    a + 1 ∈ map.filterMap regionEnd := by
  obtain ⟨r, hr, hh⟩ := resolves_eq_true.mp h
  have hn : ¬ regionHolds r (a + 1) = true := fun e => by
    rw [resolves_eq_true.mpr ⟨r, hr, e⟩] at h'; exact Bool.noConfusion h'
  refine List.mem_filterMap.mpr ⟨r, hr, ?_⟩
  obtain ⟨base, size⟩ := r
  cases size with
  | none => simp [regionHolds] at hh hn; omega
  | some n => simp [regionHolds, regionEnd] at hh hn ⊢; omega

/-- The lowest unresolved address of a run is among the candidates. -/
theorem candidate_of_least {map : List Region} {lo n a : Nat} (hlo : lo ≤ a) (ha : resolves map a = false)
    (hleast : ∀ b, lo ≤ b → b < a → resolves map b = true) (hn : a < lo + n) :
    a ∈ (lo :: map.filterMap regionEnd).filter fun a =>
      decide (lo ≤ a) && decide (a < lo + n) && !resolves map a := by
  refine List.mem_filter.mpr ⟨?_, by simp [hlo, hn, ha]⟩
  by_cases h : a = lo
  · simp [h]
  · obtain ⟨b, rfl⟩ : ∃ b, a = b + 1 := ⟨a - 1, by omega⟩
    exact List.mem_cons_of_mem _ (end_of_run (hleast b (by omega) (by omega)) ha)

theorem firstUnresolved_some {map : List Region} {lo n a : Nat} (h : firstUnresolved map lo n = some a) :
    lo ≤ a ∧ a < lo + n ∧ resolves map a = false ∧ ∀ b, lo ≤ b → b < a → resolves map b = true := by
  obtain ⟨hmem, hmin⟩ := List.min?_eq_some_iff.mp h
  have hp := (List.mem_filter.mp hmem).2
  simp only [Bool.and_eq_true, decide_eq_true_eq, Bool.not_eq_true'] at hp
  refine ⟨hp.1.1, hp.1.2, hp.2, ?_⟩
  intro b
  induction b using Nat.strongRecOn with
  | _ b ih =>
    intro hlo hb
    cases hr : resolves map b with
    | true => rfl
    | false =>
      have := hmin b (candidate_of_least hlo hr (fun c h1 h2 => ih c h2 h1 (by omega)) (by omega))
      omega

theorem firstUnresolved_none {map : List Region} {lo n : Nat} :
    firstUnresolved map lo n = none ↔ ∀ a, lo ≤ a → a < lo + n → resolves map a = true := by
  constructor
  · intro h a
    rw [firstUnresolved, List.min?_eq_none_iff] at h
    induction a using Nat.strongRecOn with
    | _ a ih =>
      intro hlo ha
      cases hr : resolves map a with
      | true => rfl
      | false =>
        have := candidate_of_least hlo hr (fun b h1 h2 => ih b h2 h1 (by omega)) ha
        rw [h] at this
        exact absurd this (by simp)
  · intro h
    cases hf : firstUnresolved map lo n with
    | none => rfl
    | some a =>
      obtain ⟨h1, h2, h3, -⟩ := firstUnresolved_some hf
      rw [h a h1 h2] at h3; exact Bool.noConfusion h3

/-- No address of the rows is unresolved exactly where each resolves. -/
theorem lowestUnresolved_none {map : List Region} {base pitch n rows : Nat} :
    lowestUnresolved map base pitch n rows = none ↔
      ∀ j < rows, ∀ k < n, resolves map (base + j * pitch + k) = true := by
  rw [lowestUnresolved, List.min?_eq_none_iff, List.filterMap_eq_nil_iff]
  constructor
  · intro h j hj k hk
    exact firstUnresolved_none.mp (h j (List.mem_range.mpr hj)) _ (by omega) (by omega)
  · intro h j hj
    refine firstUnresolved_none.mpr fun a h1 h2 => ?_
    have := h j (List.mem_range.mp hj) (a - (base + j * pitch)) (by omega)
    rwa [show base + j * pitch + (a - (base + j * pitch)) = a by omega] at this

/-- The address answered is one of the rows' addresses, does not resolve, and is the lowest such address. -/
theorem lowestUnresolved_some {map : List Region} {base pitch n rows a : Nat}
    (h : lowestUnresolved map base pitch n rows = some a) :
    (∃ j < rows, ∃ k < n, a = base + j * pitch + k) ∧ resolves map a = false ∧
      ∀ j < rows, ∀ k < n, resolves map (base + j * pitch + k) = false → a ≤ base + j * pitch + k := by
  obtain ⟨hmem, hmin⟩ := List.min?_eq_some_iff.mp h
  obtain ⟨j, hj, hf⟩ := List.mem_filterMap.mp hmem
  obtain ⟨h1, h2, h3, -⟩ := firstUnresolved_some hf
  refine ⟨⟨j, List.mem_range.mp hj, a - (base + j * pitch), by omega, by omega⟩, h3, ?_⟩
  intro j' hj' k hk hr
  cases hf' : firstUnresolved map (base + j' * pitch) n with
  | none =>
    rw [firstUnresolved_none.mp hf' _ (by omega) (by omega)] at hr; exact Bool.noConfusion hr
  | some b =>
    obtain ⟨-, -, -, h4⟩ := firstUnresolved_some hf'
    have hab : a ≤ b := hmin b (List.mem_filterMap.mpr ⟨j', List.mem_range.mpr hj', hf'⟩)
    by_cases hlt : base + j' * pitch + k < b
    · rw [h4 _ (by omega) hlt] at hr; exact Bool.noConfusion hr
    · omega

end Sys2Proof.Machine
end

