-- ==== Sys2Proof/Tests/Slice0.lean ====
section
/-! SUPPORT. Tests: well-formedness, one written-out word per command, one step per command against the vectors of
spec/95_test_vectors.md (their names stand in the docstrings), and a witness for the hypotheses of each statement. -/

namespace Sys2Proof.Tests

open Sys2Proof.Machine

/-! ### Helpers -/

/-- The outcome is a next state that satisfies `p`. -/
def after (o : Host.Outcome State Fault Refusal) (p : State → Bool) : Bool :=
  match o with
  | .next t => p t
  | .fault _ => false
  | .refused _ => false

/-- The outcome is a next state. -/
def completes (o : Host.Outcome State Fault Refusal) : Bool := after o fun _ => true

/-- The outcome is this refusal. -/
def refusedWith (o : Host.Outcome State Fault Refusal) (r : Refusal) : Bool :=
  match o with
  | .refused q => q == r
  | .next _ => false
  | .fault _ => false

/-- The decoder reads `i` from the words. -/
def decodesTo (w0 w1 : Word) (i : Instr) : Bool :=
  match decodeWords w0 w1 with
  | .ok j => j == i
  | .error _ => false

/-- The decoder rejects the words as `r`. -/
def rejectsAs (w0 w1 : Word) (r : DecodeReject) : Bool :=
  match decodeWords w0 w1 with
  | .ok _ => false
  | .error q => q == r

/-- `n` bytes from `base` up, holding `off`, `off + 1`, …. -/
def bytesAt (base n off : Nat) : List Host.Cell := (List.range n).map fun k => (base + k, BitVec.ofNat 8 (off + k))

/-- `tiles[1] = {RGBA, b, pitch 8, tmem_addr 16}`. -/
def tileOf (b : Bpp) : Tile :=
  { Tile.default with format := { Tile.default.format with bpp := b, pitch := 8, tmemAddr := 16 } }

/-- The state of V-L1 with `tiles[1].bpp = b`. -/
def loadState (b : Bpp) : State :=
  ({ State.reset with tex := ⟨.rgba, .b16, 4, 0x2000⟩, sysMem := bytesAt 0x2000 16 0x10 } : State).setTile 1 (tileOf b)

/-- The state of V-T1: `tiles[1].rect = (0, 0, 28, 4)`, `fb = {RGBA, 16, 320, 0x100000}`. -/
def drawState : State :=
  { (loadState .b16).setTileRect 1 ⟨0, 0, 28, 4⟩ with fb := ⟨.rgba, .b16, 320, 0x100000⟩ }

/-- A Texture Rectangle's first word waits in the buffer. -/
def pending (w : Word) (s : State) : State := { s with cmdbuf := s.cmdbuf.set 0 w, cmdlen := 1 }

/-- The state of the fill vectors: `fb = {RGBA, b, 320, 0x100000}`, mode `m`. -/
def fillState (b : Bpp) (m : CycleMode) : State :=
  { State.reset with fb := ⟨.rgba, b, 320, 0x100000⟩, cycleMode := m, fillColor := 0xF801F801 }

/-- `MEM_RESOLVES(a) = (a < 0x400000)`. -/
def below4M (s : State) : State := { s with params := { s.params with memMap := [⟨0, some 0x400000⟩] } }

/-- The fill state with `fb.dram_addr` moved to `0x3FFFF0` (V-F28). -/
def edgeState (m : CycleMode) : State := below4M { fillState .b32 m with fb := ⟨.rgba, .b32, 320, 0x3FFFF0⟩ }

/-! ### Well-formedness: an ill-formed term for each check is refused -/

theorem test_wf_otherModes_opcode : (Instr.setOtherModes 0 0x3C00000000000000).wellFormed = false := by decide
theorem test_wf_otherModes_cycle : (Instr.setOtherModes 1 0x2F30000000000000).wellFormed = false := by decide
theorem test_wf_combine_opcode : (Instr.setCombineMode 0x2F00000000000000).wellFormed = false := by decide
theorem test_wf_accepts : (Instr.setOtherModes 3 0x2F30000000000000).wellFormed = true ∧
    (Instr.setCombineMode 0xFC00000000000001).wellFormed = true := by decide

/-! ### Decoding: a word for each command, its fields put together from bit 63 down as spec/30_encoding.md section 2
lays them out -/

theorem test_decode_textureRectangle :
    decodesTo (0b00#2 ++ 0x24#6 ++ 72#12 ++ 88#12 ++ 0b11111#5 ++ 1#3 ++ 40#12 ++ 80#12)
      (0xFC00#16 ++ 0x0200#16 ++ 0xFFFF#16 ++ 0x7FFF#16)
      (.textureRectangle 72 88 1 40 80 0xFC00 0x0200 0xFFFF 0x7FFF) = true := by decide
theorem test_decode_syncTile : decodesTo (0b11#2 ++ 0x28#6 ++ 0xABCDEF01234567#56) 0 .syncTile = true := by decide
theorem test_decode_setScissor :
    decodesTo (0b00#2 ++ 0x2D#6 ++ 1#12 ++ 2#12 ++ 0xFF#8 ++ 1280#12 ++ 960#12) 0 (.setScissor 1 2 1280 960) = true := by
  decide
theorem test_decode_setOtherModes :
    decodesTo (0b00#2 ++ 0x2F#6 ++ 0b01#2 ++ 0b10#2 ++ 5#52) 0
      (.setOtherModes 2 (0b00#2 ++ 0x2F#6 ++ 0b01#2 ++ 0b10#2 ++ 5#52)) = true := by decide
theorem test_decode_loadTile :
    decodesTo (0b00#2 ++ 0x34#6 ++ 8#12 ++ 4#12 ++ 0b10101#5 ++ 7#3 ++ 20#12 ++ 12#12) 0 (.loadTile 8 4 7 20 12) = true := by
  decide
theorem test_decode_setTile :
    decodesTo (0b00#2 ++ 0x35#6 ++ 2#3 ++ 1#2 ++ 1#1 ++ 20#9 ++ 64#9 ++ 0b11111#5 ++ 3#3 ++ 5#4 ++ 0#1 ++ 1#1 ++ 6#4 ++
      11#4 ++ 1#1 ++ 0#1 ++ 5#4 ++ 2#4) 0 (.setTile 2 1 20 64 3 5 0 1 6 11 1 0 5 2) = true := by decide
theorem test_decode_fillRectangle :
    decodesTo (0b00#2 ++ 0x36#6 ++ 124#12 ++ 60#12 ++ 0#8 ++ 16#12 ++ 4#12) 0 (.fillRectangle 124 60 16 4) = true := by
  decide
theorem test_decode_setFillColor :
    decodesTo (0b00#2 ++ 0x37#6 ++ 0xABCDEF#24 ++ 0x12345678#32) 0 (.setFillColor 0x12345678) = true := by decide
theorem test_decode_setBlendColor :
    decodesTo (0b00#2 ++ 0x39#6 ++ 0xABCDEF#24 ++ 0xFF#8 ++ 0x80#8 ++ 0x40#8 ++ 0xC0#8) 0
      (.setBlendColor 0xFF 0x80 0x40 0xC0) = true := by decide
theorem test_decode_setCombineMode :
    decodesTo (0b00#2 ++ 0x3C#6 ++ 0x123456789ABCDE#56) 0 (.setCombineMode 0x3C123456789ABCDE) = true := by decide
theorem test_decode_setTextureImage :
    decodesTo (0b00#2 ++ 0x3D#6 ++ 4#3 ++ 3#2 ++ 0x1FF#9 ++ 1023#10 ++ 0b111111#6 ++ 0x2345678#26) 0
      (.setTextureImage 4 3 1023 0x2345678) = true := by decide
theorem test_decode_setColorImage :
    decodesTo (0b11#2 ++ 0x3F#6 ++ 0#3 ++ 2#2 ++ 0#9 ++ 0x13F#10 ++ 0#6 ++ 0x100000#26) 0
      (.setColorImage 0 2 0x13F 0x100000) = true := by decide
theorem test_decode_rejects_unknown : rejectsAs 0x3E00000000000000 0 (.unknownOpcode 0x3E) = true := by decide
theorem test_decodeTableWord :
    decodeTableWord 64 0x37000000F801F801 = some (.setFillColor 0xF801F801) ∧
      decodeTableWord 128 0x0004000400004000_2404805801028050 = some (.textureRectangle 72 88 1 40 80 4 4 0 0x4000) := by
  decide

/-! ### One step of each command -/

/-- V-S1. -/
theorem test_setScissor : after (submit 0x2D000000005003C0 State.reset) (fun t => t.clip == ⟨0, 0, 1280, 960⟩) = true := by
  decide
/-- V-S7, V-S8: the largest fields, ignored bits set. -/
theorem test_setTextureImage : after (submit 0x3D9FFFFFFFFFFFFF State.reset)
    (fun t => t.tex == ⟨.i, .b32, 1024, 0x3FFFFFF⟩ && t.events == []) = true := by decide
/-- V-S11: an unknown format code. -/
theorem test_setColorImage : after (submit 0x3FB0013F00100000 State.reset)
    (fun t => t.fb == ⟨.rgba, .b16, 320, 0x100000⟩ && t.events == [.unknownFormat 5]) = true := by decide
/-- V-A6: bits 63:62 are ignored. -/
theorem test_setColorImage_topBits : after (submit 0xFF10013F00200000 State.reset)
    (fun t => t.fb == ⟨.rgba, .b16, 320, 0x200000⟩) = true := by decide
/-- V-S15. -/
theorem test_syncTile : after (submit 0x28FFFFFFFFFFFFFF (loadState .b16))
    (fun t => t == (loadState .b16).taken 0x28FFFFFFFFFFFFFF) = true := by decide
/-- V-S17. -/
theorem test_setOtherModes : after (submit 0x2F2FFFFFFFFFFFFF State.reset)
    (fun t => t.cycleMode == .copy && t.pp.otherModes == 0x2F2FFFFFFFFFFFFF &&
      t.events == [.ppOtherModes 0x2F2FFFFFFFFFFFFF]) = true := by decide
/-- The worked Set Tile word, on a tile whose `rect` is not zero, so that R36's "keeps rect" shows. -/
theorem test_setTile : after (submit 0x354828400355AE52 (State.reset.setTileRect 3 ⟨1, 2, 3, 4⟩))
    (fun t => t.tile 3 ==
      ⟨⟨.ci, .b8, 160, 512, 5, true, false, false, true, 31, 63, 2, 11⟩, ⟨1, 2, 3, 4⟩⟩) = true := by decide
/-- V-S21. -/
theorem test_setCombineMode : after (submit 0x3CFFFFFFFFFFFFFF State.reset)
    (fun t => t.pp.combine == 0x3CFFFFFFFFFFFFFF && t.events == [.ppCombine 0x3CFFFFFFFFFFFFFF]) = true := by decide
/-- V-S22. -/
theorem test_setBlendColor : after (submit 0x39000000FF8040C0 State.reset)
    (fun t => t.pp.blend == ⟨0xFF, 0x80, 0x40, 0xC0⟩ && t.events == [.ppBlendColor ⟨0xFF, 0x80, 0x40, 0xC0⟩]) = true := by
  decide
/-- V-S25. -/
theorem test_setFillColor : after (submit 0x37ABCDEF12345678 State.reset) (fun t => t.fillColor == 0x12345678) = true := by
  decide
/-- V-L1. -/
theorem test_loadTile : after (submit 0x340000000101C004 (loadState .b16))
    (fun t => t.tmem == bytesAt 16 16 0x10 && (t.tile 1).rect == ⟨0, 0, 28, 4⟩ && t.cmdlen == 0) = true := by decide
/-- V-L3. -/
theorem test_loadTile_fault : after (submit 0x340000000101C004 { loadState .b8 with tex := ⟨.rgba, .b16, 8, 0x2000⟩ })
    (fun t => t.tmem == [] && (t.tile 1).rect == ⟨0, 0, 28, 4⟩ && t.outcome == .fault .loadTileBpp && t.cmdlen == 0 &&
      t.events == [.fault (.loadTileBpp 1 .b8 .b16)]) = true := by decide
/-- V-T1, the first word. -/
theorem test_textureRectangle_waits : after (submit 0x2404805801028050 drawState)
    (fun t => t == pending 0x2404805801028050 drawState) = true := by decide
/-- V-T1, the second word. -/
theorem test_textureRectangle : after (submit 0x0000000004000400 (pending 0x2404805801028050 drawState))
    (fun t => t.cmdlen == 0 && t.events == [.mem (.write 0x100000), .drawRectWithSlopes ⟨.sys, 0x100000, 320, 240, 640, .rgba, .b16, .be⟩
      ⟨40, 80, 71, 87⟩ ⟨.tmem, 16, 8, 2, 8, .rgba, .b16, .be⟩ ⟨0, 0⟩ ⟨1024, 1024⟩]) = true := by decide
/-- V-F5: every byte of system memory the fill leaves. -/
theorem test_fillRectangle : after (submit 0x3600400800004008 (fillState .b32 .fill))
    (fun t => t.sysMem == [(0x100A04, 0xF8), (0x100A05, 0x01), (0x100A06, 0xF8), (0x100A07, 0x01)]) = true := by decide
/-- V-F30. -/
theorem test_fillRectangle_one :
    after (submit 0x3604C03800028028
        { fillState .b32 .one with fillColor := 0xFF0000FF, fb := ⟨.rgba, .b32, 320, 0x200000⟩ })
      (fun t => t.events == [.mem (.write 0x200000), .fillRectWithPipeline ⟨.sys, 0x200000, 320, 240, 1280, .rgba, .b32, .le⟩
        ⟨40, 40, 76, 56⟩ ⟨0xFF, 0, 0, 0xFF⟩ t.pp]) = true := by decide
/-- V-F28: the last words that resolve. -/
theorem test_fillRectangle_edge : after (submit 0x3600C00000000000 (edgeState .fill))
    (fun t => t.sysMem.length == 16 && t.outcome == .ok) = true := by decide
/-- V-F29. -/
theorem test_fillRectangle_unresolved : after (submit 0x3601000000000000 (edgeState .fill))
    (fun t => t.sysMem == [] && t.events == [.fault (.mem 0x400000)] && t.outcome == .fault .mem) = true := by decide
/-- V-A3. -/
theorem test_unknownOpcode : after (submit 0x3E00000000000000 State.reset)
    (fun t => t.cmdlen == 0 && t.events == [.unknownOpcode 0x3E]) = true := by decide

/-- A placed word runs in the very next step. -/
theorem test_withFetchWord : after (step (State.reset.withFetchWord 64 0x37000000F801F801))
    (fun t => t.fillColor == 0xF801F801 && t.cmdIn == []) = true := by decide
/-- A placed two-word command runs in the very next step (V-T2's words on the reset state). -/
theorem test_withFetchWord_two : after (step (State.reset.withFetchWord 128 0xFC000200FFFF7FFF_2404004002000000))
    (fun t => t.cmdlen == 0 && t.events == [.mem (.write 0), .drawRectWithSlopes ⟨.sys, 0, 320, 240, 0, .rgba, .b4, .be⟩
      ⟨0, 0, 63, 63⟩ ⟨.tmem, 0, 1, 1, 0, .rgba, .b4, .be⟩ ⟨-1024, 512⟩ ⟨-1, 32767⟩]) = true := by decide

/-! ### Witnesses: states and operands that meet the hypotheses of each statement, for each of its clauses -/

theorem witness_SignedFieldsAreTwosComplement :
    (0 + 16 ≤ 64 ∧ (0x8000 : Word).getLsbD (0 + 15) = true) ∧
      (48 + 16 ≤ 64 ∧ (0x7FFF000000000000 : Word).getLsbD (48 + 15) = false) ∧ opcodeOf 0x2404004002000000 = 0x24 := by
  decide
theorem witness_DecodeOfEncode :
    (Instr.setOtherModes 3 0xEFB0000000000001).wellFormed = true ∧ (Instr.setCombineMode 0x3C00000000000000).wellFormed = true ∧
      (Instr.setScissor 0 0xFFF 0 0xFFF).wellFormed = true := by decide
theorem witness_DecodedInstructionsAreWellFormed :
    decodesTo 0x2FCFFFFFFFFFFFFF 0 (.setOtherModes 0 0x2FCFFFFFFFFFFFFF) = true := by decide
theorem witness_DecoderRejectsExactlyTheUnknownOpcodes :
    rejectsAs 0 0 (.unknownOpcode 0) = true ∧ rejectsAs 0xFE00000000000000 0 (.unknownOpcode 0x3E) = true ∧
      (0x2400000000000000 : Word).toNat / 2 ^ 56 % 2 ^ 6 = 0x24 := by decide
theorem witness_IgnoredBitsDoNotMatter :
    opcodeOf 0x2800000000000000 = 0x28 ∧
      0x2800000000000000 &&& 0x3F00000000000000 = (0xE8FFFFFFFFFFFFFF : Word) &&& 0x3F00000000000000 ∧
      opcodeOf 0x3D9803FF03FFFFFF = 0x3D ∧
      0x3D9803FF03FFFFFF &&& 0x3FF803FF03FFFFFF = (0x3D9FFFFFFFFFFFFF : Word) &&& 0x3FF803FF03FFFFFF ∧
      opcodeOf 0x2D00000000000000 ≠ 0x24 := by decide
/-- A one-word command at a boundary, and the second word of a Texture Rectangle. -/
theorem witness_StepRunsTheDecodedInstruction :
    (∃ (s u : State) (w : Word) (i : Instr) (h : s.cmdlen < 16), s.cmdIn = [w] ∧
      u = { s with cmdbuf := s.cmdbuf.set s.cmdlen w h, cmdlen := s.cmdlen + 1, cmdIn := [], events := [],
                   outcome := .ok } ∧
      ¬ u.cmdlen < words (opcodeOf u.cmdbuf[0]) ∧ decodeWords u.cmdbuf[0] u.cmdbuf[1] = .ok i) ∧
    (∃ (s u : State) (w : Word) (i : Instr) (h : s.cmdlen < 16), s.cmdIn = [w] ∧ s.cmdlen = 1 ∧
      u = { s with cmdbuf := s.cmdbuf.set s.cmdlen w h, cmdlen := s.cmdlen + 1, cmdIn := [], events := [],
                   outcome := .ok } ∧
      ¬ u.cmdlen < words (opcodeOf u.cmdbuf[0]) ∧ decodeWords u.cmdbuf[0] u.cmdbuf[1] = .ok i) :=
  ⟨⟨{ State.reset with cmdIn := [0x2800000000000000] }, _, 0x2800000000000000, .syncTile, by decide, rfl, rfl,
      by decide, rfl⟩,
    ⟨{ pending 0x2404805801028050 drawState with cmdIn := [0x0000000004000400] }, _, 0x0000000004000400,
      .textureRectangle 72 88 1 40 80 0 0 1024 1024, by decide, rfl, rfl, rfl, by decide, rfl⟩⟩
theorem witness_TextureRectangleWaitsForItsSecondWord :
    (drawState.cmdlen = 0 ∧ opcodeOf 0x2404805801028050 = 0x24) ∧
      ((pending 0x2404805801028050 drawState).cmdlen = 1 ∧
        opcodeOf (pending 0x2404805801028050 drawState).cmdbuf[0] = 0x24) ∧
      opcodeOf 0x2800000000000000 ≠ 0x24 ∧ completes (submit 0x2800000000000000 drawState) = true := by decide
theorem witness_UnknownOpcodeIsDropped :
    State.reset.cmdlen = 0 ∧ (0xFE00000000000000 : Word).toNat / 2 ^ 56 % 2 ^ 6 ∉
      [0x24, 0x28, 0x2D, 0x2F, 0x34, 0x35, 0x36, 0x37, 0x39, 0x3C, 0x3D, 0x3F] := by decide
theorem witness_EveryCompletedCommandClearsTheLength :
    drawState.bufferLegal = true ∧ completes (submit 0x2404805801028050 drawState) = true ∧
      completes (submit 0x2800000000000000 drawState) = true ∧
      (pending 0x2404805801028050 drawState).bufferLegal = true ∧
      completes (submit 0x0000000004000400 (pending 0x2404805801028050 drawState)) = true := by decide
theorem witness_IdleStepKeepsAllState : State.reset.cmdIn = [] := rfl
theorem witness_SetScissorReplacesClip : State.reset.cmdlen = 0 ∧ opcodeOf 0x2D000000005003C0 = 0x2D := by decide
/-- A known and an unknown format code. -/
theorem witness_SetTextureImageReplacesTex :
    State.reset.cmdlen = 0 ∧ opcodeOf 0x3D9803FF03FFFFFF = 0x3D ∧ opcodeOf 0x3DA0000000000000 = 0x3D := by decide
theorem witness_SetColorImageReplacesFb :
    State.reset.cmdlen = 0 ∧ opcodeOf 0x3F10013F00100000 = 0x3F ∧ opcodeOf 0x3FB0013F00100000 = 0x3F := by decide
theorem witness_SyncTileDoesNothing : State.reset.cmdlen = 0 ∧ opcodeOf 0x28FFFFFFFFFFFFFF = 0x28 := by decide
theorem witness_SetOtherModesSetsCycleModeAndForwards :
    State.reset.cmdlen = 0 ∧ opcodeOf 0x2F2FFFFFFFFFFFFF = 0x2F := by decide
theorem witness_SetTileReplacesFormatFields :
    State.reset.cmdlen = 0 ∧ opcodeOf 0x354828400355AE52 = 0x35 ∧
      (3 : BitVec 3).toNat = (0x354828400355AE52 : Word).toNat / 2 ^ 24 % 2 ^ 3 := by decide
theorem witness_SetCombineModeForwardsItsWord : State.reset.cmdlen = 0 ∧ opcodeOf 0x3CFFFFFFFFFFFFFF = 0x3C := by decide
theorem witness_SetBlendColorForwardsFourChannels :
    State.reset.params.channelNameOrder = .lsbFirst ∧
      ({ State.reset.params with channelNameOrder := .msbFirst } : Params).channelNameOrder = .msbFirst ∧
      State.reset.cmdlen = 0 ∧ opcodeOf 0x39000000FF8040C0 = 0x39 := by decide
theorem witness_SetFillColorStoresTheRawValue : State.reset.cmdlen = 0 ∧ opcodeOf 0x37ABCDEF12345678 = 0x37 := by decide
theorem witness_UnknownFormatCodeActsAsCodeZero : 5 ≤ (5 : BitVec 3).toNat ∧ 5 ≤ (7 : BitVec 3).toNat := by decide
theorem witness_SettersAreIdempotent : setterSlot .syncTile ≠ none ∧ setterSlot (.setFillColor 1) ≠ none := by decide
/-- Two tiles, and two registers. -/
theorem witness_SettersOfDisjointStateCommute :
    (setterSlot (.setTile 0 0 0 0 6 0 0 0 0 0 0 0 0 0) = some (.tile 6) ∧
      setterSlot (.setTile 0 0 0 0 7 0 0 0 0 0 0 0 0 0) = some (.tile 7) ∧ Slot.tile 6 ≠ Slot.tile 7) ∧
    setterSlot (.setOtherModes 0 0) = some .otherModes ∧ setterSlot (.setCombineMode 0) = some .combine ∧
      Slot.otherModes ≠ Slot.combine := by decide
theorem witness_TileWriteDiscipline :
    completes (exec (.setTile 2 1 20 64 3 5 0 1 6 11 1 0 5 2) State.reset) = true ∧
      completes (exec (.loadTile 0 0 1 28 4) (loadState .b16)) = true ∧
      completes (exec (.loadTile 0 0 1 0xFFF 0xFFF) (loadState .b8)) = true ∧
      completes (exec (.setFillColor 1) State.reset) = true := by decide
/-- Each ground of the fault, and the check passed, where the kind is latched already too. -/
theorem witness_LoadTileFaultsOnItsFormatCheck :
    ((0 : BitVec 12).toNat ≤ (28 : BitVec 12).toNat ∧ (0 : BitVec 12).toNat ≤ (0 : BitVec 12).toNat) ∧
      ((loadState .b8).tile 1).format.bpp ≠ (loadState .b8).tex.bpp ∧ State.reset.tex.bpp = .b4 ∧
      ({ State.reset with tex := ⟨.rgba, .b32, 1, 0⟩ } : State).tex.bpp = .b32 ∧
      ((loadState .b16).tile 1).format.bpp = (loadState .b16).tex.bpp ∧ (loadState .b16).tex.bpp = .b16 ∧
      completes (exec (.loadTile 0 0 1 28 4) (loadState .b16)) = true ∧
      completes (exec (.loadTile 0 0 1 28 4)
        { loadState .b16 with faultLatch := ⟨true, false, false, false⟩ }) = true := by decide
/-- V-L1: 16-bit texels, the source at the rectangle's origin. -/
theorem witness_LoadTileCopiesTexels :
    ((0 : BitVec 12).toNat ≤ (28 : BitVec 12).toNat ∧ (0 : BitVec 12).toNat ≤ (4 : BitVec 12).toNat) ∧
      ((loadState .b16).tile 1).format.bpp = (loadState .b16).tex.bpp ∧ (loadState .b16).tex.bpp = .b16 ∧
      8 = ((28 : BitVec 12).toNat - (0 : BitVec 12).toNat) / 4 + 1 ∧
      2 = ((4 : BitVec 12).toNat - (0 : BitVec 12).toNat) / 4 + 1 ∧ 4 = min 8 (loadState .b16).tex.width ∧
      (loadState .b16).params.loadTileSrcOrigin = .rectOrigin ∧ 8 = (loadState .b16).tex.width * (8 * 2) / 8 ∧
      8 = ((loadState .b16).tile 1).format.pitch ∧ 16 = ((loadState .b16).tile 1).format.tmemAddr ∧
      16 + (2 - 1) * 8 + 4 * 2 ≤ 4096 ∧
      ∀ j < 2, ∀ k < 4 * 2, resolves (loadState .b16).params.memMap
        ((loadState .b16).tex.dramAddr.toNat + (0 + j) * 8 + 0 * 2 + k) = true := by decide
/-- One 8-bit texel at the end of tmem, the source at the image's origin. -/
theorem witness_LoadTileCopiesTexels_zeroOrigin :
    ∃ s : State, ((8 : BitVec 12).toNat ≤ (8 : BitVec 12).toNat) ∧ (s.tile 0).format.bpp = s.tex.bpp ∧ s.tex.bpp = .b8 ∧
      1 = ((8 : BitVec 12).toNat - (8 : BitVec 12).toNat) / 4 + 1 ∧ 8 = min 8 s.tex.width ∧
      s.params.loadTileSrcOrigin = .zero ∧ 8 = s.tex.width * (8 * 1) / 8 ∧ 4088 = (s.tile 0).format.tmemAddr ∧
      4088 + (1 - 1) * (s.tile 0).format.pitch + 8 * 1 ≤ 4096 ∧
      ∀ j < 1, ∀ k < 8 * 1, resolves s.params.memMap (s.tex.dramAddr.toNat + (0 + j) * 8 + 0 * 1 + k) = true :=
  ⟨{ State.reset with
      tex := ⟨.i, .b8, 8, 0⟩
      params := { defaultParams with loadTileSrcOrigin := .zero }
      tiles := Vector.replicate 8
        { tileOf .b8 with format := { (tileOf .b8).format with tmemAddr := 4088 } } }, by decide⟩
/-- An inverted rectangle on each axis; a copy whose last byte is 4096 of tmem. -/
theorem witness_LoadTileRefusals :
    (0 : BitVec 12).toNat < (4 : BitVec 12).toNat ∧ (0 : BitVec 12).toNat ≤ (4084 : BitVec 12).toNat ∧
      ((loadState .b16).tile 1).format.bpp = (loadState .b16).tex.bpp ∧ (loadState .b16).tex.bpp = .b16 ∧
      4096 < ((loadState .b16).tile 1).format.tmemAddr +
        ((4084 : BitVec 12).toNat - (0 : BitVec 12).toNat) / 4 * ((loadState .b16).tile 1).format.pitch +
        min (((28 : BitVec 12).toNat - (0 : BitVec 12).toNat) / 4 + 1) (loadState .b16).tex.width * 2 ∧
      refusedWith (exec (.loadTile 0 0 1 28 4084) (loadState .b16)) .tmemRange = true ∧
      refusedWith (exec (.loadTile 4 0 1 0 0) (loadState .b8)) .invertedRect = true := by decide
/-- Only byte `0x2008`, the first of row 1, and the bytes above it do not resolve. -/
theorem witness_LoadTileUnresolvedSourceFaults :
    ∃ s : State, (s.tile 1).format.bpp = s.tex.bpp ∧ s.tex.bpp = .b16 ∧
      4 = min (((28 : BitVec 12).toNat - (0 : BitVec 12).toNat) / 4 + 1) s.tex.width ∧
      s.params.loadTileSrcOrigin = .rectOrigin ∧ 8 = s.tex.width * (8 * 2) / 8 ∧
      (s.tile 1).format.tmemAddr + ((4 : BitVec 12).toNat - (0 : BitVec 12).toNat) / 4 * (s.tile 1).format.pitch + 4 * 2
        ≤ 4096 ∧
      (∃ j ≤ 1, ∃ k < 4 * 2, 0x2008 = s.tex.dramAddr.toNat + (0 + j) * 8 + 0 * 2 + k) ∧
      resolves s.params.memMap 0x2008 = false ∧
      ∀ j ≤ 1, ∀ k < 4 * 2, resolves s.params.memMap (s.tex.dramAddr.toNat + (0 + j) * 8 + 0 * 2 + k) = false →
        0x2008 ≤ s.tex.dramAddr.toNat + (0 + j) * 8 + 0 * 2 + k :=
  ⟨{ loadState .b16 with params := { defaultParams with memMap := [⟨0, some 0x2008⟩] } }, by decide⟩
/-- Every address of the reset map resolves. -/
theorem resolves_default (a : Nat) : resolves defaultParams.memMap a = true := by
  simp [resolves, regionHolds, defaultParams]
/-- V-T1, and the same words with the other TEXRECT_DEC. -/
theorem witness_TextureRectangleIssuesOneRequest :
    (drawState.params.texRectDec = .ulp ∧ (40 : BitVec 12).toNat + 1 ≤ (72 : BitVec 12).toNat ∧
      (80 : BitVec 12).toNat + 1 ≤ (88 : BitVec 12).toNat) ∧
    (({ drawState.params with texRectDec := .one } : Params).texRectDec = .one ∧
      (40 : BitVec 12).toNat + 4 ≤ (44 : BitVec 12).toNat) ∧
    (drawState.tile 1).rect.s0.toNat ≤ (drawState.tile 1).rect.s1.toNat ∧
    (drawState.tile 1).rect.t0.toNat ≤ (drawState.tile 1).rect.t1.toNat ∧
    (drawState.tile 1).format.tmemAddr + ((2 - 1) * (drawState.tile 1).format.pitch +
      (8 * bppBits (drawState.tile 1).format.bpp + 7) / 8) ≤ 4096 ∧
    ∀ k < 239 * 640 + 640, resolves drawState.params.memMap (drawState.fb.dramAddr.toNat + k) = true :=
  ⟨by decide, by decide, by decide, by decide, by decide, fun _ _ => resolves_default _⟩
/-- The hypotheses of each refusal, with each TEXRECT_DEC. -/
theorem witness_TextureRectangleRefusals :
    (drawState.params.texRectDec = .ulp ∧ (40 : BitVec 12).toNat < (40 : BitVec 12).toNat + 1 ∧
      (44 : BitVec 12).toNat < (41 : BitVec 12).toNat + 4) ∧
    ((40 : BitVec 12).toNat + 1 ≤ (72 : BitVec 12).toNat ∧ (80 : BitVec 12).toNat + 4 ≤ (88 : BitVec 12).toNat ∧
      ((drawState.setTileRect 1 ⟨4, 0, 0, 0⟩).tile 1).rect.s1.toNat <
        ((drawState.setTileRect 1 ⟨4, 0, 0, 0⟩).tile 1).rect.s0.toNat) ∧
    4096 < (drawState.tile 1).format.tmemAddr + (0xFFF - 0) / 4 * (drawState.tile 1).format.pitch +
      (((28 - 0) / 4 + 1) * bppBits (drawState.tile 1).format.bpp + 7) / 8 ∧
    refusedWith (exec (.textureRectangle 40 88 1 40 80 0 0 0 0) drawState) .degenerateRect = true ∧
    refusedWith (exec (.textureRectangle 72 88 1 40 80 0 0 0 0) (drawState.setTileRect 1 ⟨4, 0, 0, 0⟩))
      .invertedRect = true ∧
    refusedWith (exec (.textureRectangle 72 88 1 40 80 0 0 0 0) (drawState.setTileRect 1 ⟨0, 0, 28, 0xFFF⟩))
      .tmemRange = true := by decide
theorem witness_TextureRectangleReadsNoModeClipOrPipeline :
    completes (exec (.textureRectangle 72 88 1 40 80 0 0 1024 1024) drawState) = true := by decide
theorem witness_FillRectangleInTwoOrCopyFaults :
    (fillState .b16 .two).cycleMode = .two ∧ (fillState .b16 .copy).cycleMode = .copy := by decide
/-- V-F2 (`X1` off by one) in mode Fill, V-F1 in mode Fill. -/
theorem witness_FillRectangleAlignmentFault :
    (fillState .b16 .fill).cycleMode = .fill ∧ 2 = 32 / bppBits (fillState .b16 .fill).fb.bpp ∧
      ¬ (((0 : BitVec 12).toNat / 2 : Nat) * (2 : Int) = (0 : BitVec 12).toNat ∧
        ((((121 : BitVec 12).toNat + 4) / 2 : Nat) - (4 : Int) + 4) * 2 - 4 = (121 : BitVec 12).toNat) ∧
      (((0 : BitVec 12).toNat / 2 : Nat) * (2 : Int) = (0 : BitVec 12).toNat ∧
        ((((124 : BitVec 12).toNat + 4) / 2 : Nat) - (4 : Int) + 4) * 2 - 4 = (124 : BitVec 12).toNat) ∧
      completes (exec (.fillRectangle 124 60 0 0) (fillState .b16 .fill)) = true := by decide
/-- V-F1. -/
theorem witness_FlatFillWritesWholeWords :
    ((fillState .b16 .fill).cycleMode = .fill ∧ 2 = 32 / bppBits (fillState .b16 .fill).fb.bpp ∧
      (0 : BitVec 12).toNat % 2 = 0 ∧ ((124 : BitVec 12).toNat + 4) % 2 = 0 ∧
      60 + 4 = ((124 : BitVec 12).toNat + 4) / 2 ∧ (0 : BitVec 12).toNat / 2 % 4 = 0 ∧ 60 % 4 = 0 ∧
      (60 : BitVec 12).toNat % 4 = 0 ∧ 60 / 4 < 320 ∧ (60 : BitVec 12).toNat / 4 < 240 ∧
      640 = (fillState .b16 .fill).fb.width * bppBits (fillState .b16 .fill).fb.bpp / 8) ∧
      ∀ j < 16, ∀ k < 16 * 4, resolves (fillState .b16 .fill).params.memMap (0x100000 + j * 640 + k) = true :=
  ⟨by decide, fun _ _ _ _ => resolves_default _⟩
/-- V-F30, with each channel order. -/
theorem witness_PipelineFillIssuesOneRequest :
    ((fillState .b32 .one).cycleMode = .one ∧ 1 = 32 / bppBits (fillState .b32 .one).fb.bpp ∧
      ((76 : BitVec 12).toNat + 4) % 1 = 0 ∧ 76 + 4 = ((76 : BitVec 12).toNat + 4) / 1 ∧
      (40 : BitVec 12).toNat / 1 % 4 = 0 ∧ 76 % 4 = 0 ∧ (40 : BitVec 12).toNat % 4 = 0 ∧
      (56 : BitVec 12).toNat % 4 = 0 ∧ 76 / 4 < 320 ∧ (56 : BitVec 12).toNat / 4 < 240 ∧
      1280 = (fillState .b32 .one).fb.width * bppBits (fillState .b32 .one).fb.bpp / 8 ∧
      (fillState .b32 .one).params.channelNameOrder = .lsbFirst) ∧
      ∀ k < 239 * 1280 + 1280, resolves (fillState .b32 .one).params.memMap (0x100000 + k) = true :=
  ⟨by decide, fun _ _ => resolves_default _⟩
/-- The hypotheses of each refusal (V-F20, V-F9, V-F3, V-F18, V-F19): `c` is 1 at 32 bits per pixel and 2 at 16. -/
theorem witness_FillRectangleRefusals :
    ((fillState .b32 .fill).cycleMode = .fill ∧ (fillState .b32 .one).cycleMode = .one ∧
      1 = 32 / bppBits (fillState .b32 .fill).fb.bpp ∧ 2 = 32 / bppBits (fillState .b16 .fill).fb.bpp) ∧
    ((8 : BitVec 12).toNat % 1 = 0 ∧ ((4 : BitVec 12).toNat + 4) % 1 = 0 ∧ (4 : BitVec 12).toNat < (8 : BitVec 12).toNat) ∧
    ((0 : BitVec 12).toNat % 2 = 0 ∧ ((0 : BitVec 12).toNat + 4) % 2 = 0 ∧ ((0 : BitVec 12).toNat + 4) / 2 < 4) ∧
    (((120 : BitVec 12).toNat + 4) % 2 = 0 ∧ 58 + 4 = ((120 : BitVec 12).toNat + 4) / 2 ∧ 58 % 4 ≠ 0) ∧
    (1280 + 4 = ((1280 : BitVec 12).toNat + 4) / 1 ∧ 1280 % 4 = 0 ∧ 320 ≤ 1280 / 4) ∧
    (0 + 4 = ((0 : BitVec 12).toNat + 4) / 1 ∧ (960 : BitVec 12).toNat % 4 = 0 ∧ 240 ≤ (960 : BitVec 12).toNat / 4) ∧
    refusedWith (exec (.fillRectangle 4 0 8 0) (fillState .b32 .fill)) .invertedRect = true ∧
    refusedWith (exec (.fillRectangle 0 0 0 0) (fillState .b16 .fill)) .rescaleUnderflow = true ∧
    refusedWith (exec (.fillRectangle 120 60 0 0) (fillState .b16 .fill)) .fractionalRect = true ∧
    refusedWith (exec (.fillRectangle 1280 0 0 0) (fillState .b32 .fill)) .outsideWorkArea = true ∧
    refusedWith (exec (.fillRectangle 0 960 0 0) (fillState .b32 .one)) .outsideWorkArea = true := by decide
/-- V-T8. -/
theorem witness_TextureRectangleUnresolvedFaults :
    ∃ s : State, (s.params.texRectDec = .ulp ∧ (0 : BitVec 12).toNat + 1 ≤ (64 : BitVec 12).toNat ∧
      (s.tile 0).rect.s0.toNat ≤ (s.tile 0).rect.s1.toNat ∧ (s.tile 0).rect.t0.toNat ≤ (s.tile 0).rect.t1.toNat ∧
      (s.tile 0).format.tmemAddr + ((s.tile 0).rect.t1.toNat - (s.tile 0).rect.t0.toNat) / 4 * (s.tile 0).format.pitch +
        ((((s.tile 0).rect.s1.toNat - (s.tile 0).rect.s0.toNat) / 4 + 1) * bppBits (s.tile 0).format.bpp + 7) / 8
          ≤ 4096 ∧
      153600 = 239 * (s.fb.width * bppBits s.fb.bpp / 8) + 320 * bppBits s.fb.bpp / 8 ∧
      s.fb.dramAddr.toNat ≤ 0x400000 ∧ 0x400000 < s.fb.dramAddr.toNat + 153600 ∧
      resolves s.params.memMap 0x400000 = false) ∧
      ∀ k, s.fb.dramAddr.toNat ≤ k → k < 0x400000 → resolves s.params.memMap k = true :=
  ⟨below4M { State.reset with fb := ⟨.rgba, .b16, 320, 0x3E0000⟩ }, by decide,
    fun k _ h => by simpa [resolves, regionHolds, below4M] using h⟩
/-- V-F29, and the same in mode One, whose footprint passes the same address. -/
theorem witness_FillRectangleUnresolvedFaults :
    (1 = 32 / bppBits (edgeState .fill).fb.bpp ∧ 16 + 4 = ((16 : BitVec 12).toNat + 4) / 1 ∧ 16 % 4 = 0 ∧ 16 / 4 < 320 ∧
      1280 = (edgeState .fill).fb.width * bppBits (edgeState .fill).fb.bpp / 8 ∧ 5 = (16 - 0 / 1) / 4 + 1 ∧
      resolves (edgeState .fill).params.memMap 0x400000 = false ∧ (edgeState .fill).cycleMode = .fill ∧
      (∃ j < 1, ∃ k < 5 * 4, 0x400000 = 0x3FFFF0 + j * 1280 + k) ∧
      (∀ j < 1, ∀ k < 5 * 4, resolves (edgeState .fill).params.memMap (0x3FFFF0 + j * 1280 + k) = false →
        0x400000 ≤ 0x3FFFF0 + j * 1280 + k) ∧
      (edgeState .one).cycleMode = .one ∧ (edgeState .one).fb.dramAddr.toNat ≤ 0x400000 ∧
      0x400000 < (edgeState .one).fb.dramAddr.toNat + (239 * 1280 + 1280)) ∧
      ∀ k, (edgeState .one).fb.dramAddr.toNat ≤ k → k < 0x400000 → resolves (edgeState .one).params.memMap k = true :=
  ⟨by decide, fun k _ h => by simpa [resolves, regionHolds, edgeState, below4M] using h⟩
/-- A step that faults and a step that does not. -/
theorem witness_FaultsArePrecise :
    after (submit 0x340000000101C004 (loadState .b8)) (fun t => t.outcome == .fault .loadTileBpp) = true ∧
      after (submit 0x3607903C00000000 (fillState .b16 .copy)) (fun t => t.outcome == .fault .fillMode) = true ∧
      after (submit 0x340000000101C004 (loadState .b16)) (fun t => t.outcome == .ok) = true := by decide
/-- A kind latched before the step, and a kind the step adds (V-X2). -/
theorem witness_FaultLatchIsSticky :
    (FaultLatch.mk true false false false).has .loadTileBpp = true ∧
      after (step { fillState .b16 .copy with
          faultLatch := ⟨true, false, false, false⟩, cmdIn := [0x3607903C00000000] })
        (fun t => t.faultLatch == ⟨true, false, true, false⟩) = true := by decide
theorem witness_OnlyNamedRefusals :
    refusedWith (exec (.loadTile 4 0 1 0 0) (loadState .b16)) .invertedRect = true ∧ setterSlot .syncTile ≠ none := by decide
theorem witness_LegalStatesNeverStop :
    State.reset.legal = true ∧ (pending 0x2404805801028050 drawState).legal = true ∧ drawState.legal = true := by decide
/-- Legal states with listed memory from which a step leads on: a copy, a fault, an idle step. -/
theorem witness_StepKeepsLegalStates :
    (loadState .b16).legal = true ∧ completes (step { loadState .b16 with cmdIn := [0x340000000101C004] }) = true ∧
      (loadState .b8).legal = true ∧ completes (step { loadState .b8 with cmdIn := [0x340000000101C004] }) = true ∧
      completes (step drawState) = true := by decide
theorem witness_UnreadStateNeverMatters :
    State.reset.eraseUnread =
        ({ State.reset with clip := ⟨1, 2, 3, 4⟩, faultLatch := ⟨true, false, false, true⟩ } : State).eraseUnread ∧
      (loadState .b16).eraseUnread = ((loadState .b16).setTileFormat 1
        { (tileOf .b16).format with palette := 5, clampS := true, maskT := 31, shiftS := 2 }).eraseUnread := by
  refine ⟨rfl, ?_⟩
  simp only [State.eraseUnread, State.setTileFormat, State.setTile, State.mk.injEq, true_and, and_true]
  apply Vector.ext
  intro k hk
  simp only [Vector.getElem_map, Vector.getElem_set]
  split
  · rename_i h; subst h; rfl
  · rfl
theorem witness_WriteSets :
    after (exec (.setColorImage 0 2 0x13F 0x100000) State.reset) (fun t => t.fb != State.reset.fb) = true ∧
      after (exec (.loadTile 0 0 1 28 4) (loadState .b16)) (fun t => t.tmem != (loadState .b16).tmem) = true ∧
      after (exec (.fillRectangle 4 8 4 8) (fillState .b32 .fill)) (fun t => t.sysMem != []) = true := by decide
/-- Each of the three cases: the view on MEM first, then the request on RAST. -/
theorem witness_AtMostOneViewEachWay :
    after (submit 0x340000000101C004 (loadState .b16))
        (fun t => t.events.map Event.memView == [some (.read 0x2000), none] &&
          t.events.map Event.isRaster == [false, true]) = true ∧
      after (submit 0x3600400800004008 (fillState .b32 .fill))
        (fun t => t.events.map Event.memView == [some (.write 0x100000), none] &&
          t.events.map Event.isRaster == [false, true]) = true ∧
      after (submit 0x0000000004000400 (pending 0x2404805801028050 drawState))
        (fun t => t.events.map Event.memView == [some (.write 0x100000), none] &&
          t.events.map Event.isRaster == [false, true]) = true ∧
      completes (submit 0x2800000000000000 State.reset) = true := by decide
/-- Memories that differ in a byte below every view, and tmem in the first byte, which the source view, from byte 16 up,
does not reach. -/
theorem witness_DrawnBytesDependOnViewsOnly :
    completes (exec (.textureRectangle 72 88 1 40 80 0 0 1024 1024) drawState) = true ∧
      viewBytes ((0, 1) :: drawState.sysMem) (drawDstView drawState) = viewBytes drawState.sysMem (drawDstView drawState) ∧
      viewBytes [(0, 1)] (drawSrcView drawState 1) = viewBytes drawState.tmem (drawSrcView drawState 1) ∧
      (fillState .b32 .one).cycleMode = .one ∧
      completes (exec (.fillRectangle 76 56 40 40) (fillState .b32 .one)) = true ∧
      viewBytes [(0, 1)] (pipelineView (fillState .b32 .one)) =
        viewBytes (fillState .b32 .one).sysMem (pipelineView (fillState .b32 .one)) := by
  have low : ∀ (m : List Host.Cell) (v : View), v.base ≠ 0 → viewBytes ((0, 1) :: m) v = viewBytes m v :=
    fun m v hv => viewBytes_eq_iff.mpr fun k _ => if_neg (by omega)
  exact ⟨by decide, low _ _ (by decide), low _ _ (by decide), rfl, by decide, low _ _ (by decide)⟩
theorem witness_MemoryReadAfterWrite : Memory.wf [(3, 1), (5, 2)] = true ∧ (4 : Nat) ≠ 3 := by decide
theorem witness_CanonicalMemoriesAreDetermined :
    Memory.wf [(3, 1), (5, 2)] = true ∧ ∀ a, readByte [(3, 1), (5, 2)] a = readByte [(3, 1), (5, 2)] a :=
  ⟨by decide, fun _ => rfl⟩
/-- A one-word and a two-word instruction. -/
theorem witness_PlacedInstructionRunsNext :
    (0x37000000F801F801 < 2 ^ 128 ∧ (0x37000000F801F801 : Word).toNat = 0x37000000F801F801 % 2 ^ 64 ∧
      (0 : Word).toNat = 0x37000000F801F801 / 2 ^ 64 ∧ decodesTo 0x37000000F801F801 0 (.setFillColor 0xF801F801) = true) ∧
    0x0000000004000400_2404805801028050 < 2 ^ 128 ∧
      (0x2404805801028050 : Word).toNat = 0x0000000004000400_2404805801028050 % 2 ^ 64 ∧
      (0x0000000004000400 : Word).toNat = 0x0000000004000400_2404805801028050 / 2 ^ 64 ∧
      decodesTo 0x2404805801028050 0x0000000004000400 (.textureRectangle 72 88 1 40 80 0 0 1024 1024) = true := by decide

end Sys2Proof.Tests
end

section
/-! SUPPORT. The opcode map as an exact characterisation of rejection (spec/30_encoding.md R126, R128), and O5. -/

namespace Sys2Proof.Machine

/-- The twelve opcodes of the map, as numbers (R126). -/
def knownOpcodes : List Nat := [0x24, 0x28, 0x2D, 0x2F, 0x34, 0x35, 0x36, 0x37, 0x39, 0x3C, 0x3D, 0x3F]

/-- The opcode is bits 61:56 of the first word (R110). -/
theorem toNat_opcodeOf (w : Word) : (opcodeOf w).toNat = w.toNat / 2 ^ 56 % 2 ^ 6 := toNat_take w Layout.op

/-- Each of the twelve opcodes has its command, whatever the other bits (R126). -/
theorem decodeWords_ok_of_known {w0 : Word} (w1 : Word) (h : (opcodeOf w0).toNat ∈ knownOpcodes) :
    ∃ i, decodeWords w0 w1 = .ok i := by
  unfold decodeWords
  split
  case h_13 => simp_all [knownOpcodes]
  all_goals exact ⟨_, rfl⟩

/-- Every other opcode is rejected by its number (R128(a)). -/
theorem decodeWords_error_of_unknown {w0 : Word} (w1 : Word) (h : (opcodeOf w0).toNat ∉ knownOpcodes) :
    decodeWords w0 w1 = .error (.unknownOpcode (opcodeOf w0)) := by
  unfold decodeWords
  split
  case h_13 => rfl
  all_goals
    rename_i he
    rw [he] at h
    exact absurd (by decide) h

theorem decodeWords_eq_error_iff {w0 w1 : Word} {r : DecodeReject} :
    decodeWords w0 w1 = .error r ↔ r = .unknownOpcode (opcodeOf w0) ∧ (opcodeOf w0).toNat ∉ knownOpcodes := by
  constructor
  · intro h
    refine ⟨decodeWords_error h, fun hk => ?_⟩
    obtain ⟨i, hi⟩ := decodeWords_ok_of_known w1 hk
    cases hi.symm.trans h
  · rintro ⟨rfl, hu⟩
    exact decodeWords_error_of_unknown w1 hu

/-- A Texture Rectangle's first word alone is no command yet (R111, R145). -/
theorem decode_singleton_of_textureRectangle {w0 : Word} (h : opcodeOf w0 = 0x24#6) :
    decode [w0] = .error .secondWordMissing := by
  simp [decode, words, h]

/-- Settles O5: a known opcode selects an accepting arm of the map, any other the last arm. -/
theorem decoderRejectsExactlyTheUnknownOpcodes : Obligations.DecoderRejectsExactlyTheUnknownOpcodes := by
  unfold Obligations.DecoderRejectsExactlyTheUnknownOpcodes
  simp only [← toNat_opcodeOf]
  exact ⟨fun _ _ _ => decodeWords_eq_error_iff,
    fun _ h => decode_singleton_of_textureRectangle (BitVec.eq_of_toNat_eq h)⟩

end Sys2Proof.Machine
end

section
/-! SUPPORT. The assembler on the two words of a Texture Rectangle (spec/40_assembler_dispatch.md R145) and on an
unknown opcode (R147), and O9, O10. -/

namespace Sys2Proof.Machine

/-! ### Completion -/

/-- Completion clears the length of a next state and passes a fault or a refusal on (R148). -/
theorem complete_eq_mapNext (o : Host.Outcome State Fault Refusal) :
    complete o = mapNext (fun t => { t with cmdlen := 0 }) o := by
  cases o <;> rfl

theorem cmdlen_of_complete_eq_next {o : Host.Outcome State Fault Refusal} {t : State} (h : complete o = .next t) :
    t.cmdlen = 0 := by
  cases o <;> cases h
  rfl

/-! ### The two words of a Texture Rectangle -/

/-- Opcode 0x24 selects Texture Rectangle, whatever the second word holds (R126). -/
theorem decodeWords_textureRectangle {w0 : Word} (w1 : Word) (h : opcodeOf w0 = 0x24#6) :
    decodeWords w0 w1 = .ok (decodeTextureRectangle w0 w1) := by
  simp [decodeWords, h]

/-- With opcode 0x24 in `cmdbuf[0]` the command waits exactly while fewer than two words are buffered (R145). -/
theorem waits_textureRectangle {s : State} (h : opcodeOf s.word0 = 0x24#6) : s.waits = decide (s.cmdlen < 2) := by
  simp [State.waits, words, h]

/-- The first word of a Texture Rectangle is appended and nothing is dispatched. -/
theorem submit_first_textureRectangle {w : Word} {s : State} (h0 : s.cmdlen = 0) (hop : opcodeOf w = 0x24#6) :
    submit w s = .next (s.append w (by omega)) := by
  have hl : s.cmdlen < 16 := by omega
  have hop' : opcodeOf (s.append w hl).word0 = 0x24#6 := by rw [append_word0 w hl h0, hop]
  have hw : (s.append w hl).waits = true := by simp [waits_textureRectangle hop', h0]
  simp [submit, hl, hw]

/-- The word after it runs the Texture Rectangle of both words. -/
theorem submit_second_textureRectangle {w : Word} {s : State} (h1 : s.cmdlen = 1) (hop : opcodeOf s.word0 = 0x24#6) :
    submit w s = complete (exec (decodeTextureRectangle s.word0 w) (s.append w (by omega))) := by
  have hl : s.cmdlen < 16 := by omega
  have hw0 : (s.append w hl).word0 = s.word0 := append_word0_pending w hl (by omega)
  have hw : (s.append w hl).waits = false := by simp [waits_textureRectangle (hw0 ▸ hop), h1]
  have hd : decodeWords (s.append w hl).word0 (s.append w hl).word1 = .ok (decodeTextureRectangle s.word0 w) := by
    rw [hw0, append_word1 w hl h1, decodeWords_textureRectangle w hop]
  simp [submit, hl, hw, dispatch_ok hd]

/-- Settles O9: the first word only waits, the second completes it, and a one-word command ends in completion. -/
theorem textureRectangleWaitsForItsSecondWord : Obligations.TextureRectangleWaitsForItsSecondWord := by
  unfold Obligations.TextureRectangleWaitsForItsSecondWord
  refine ⟨fun s w h0 hop => ?_, fun s w h1 hop => ?_, fun s t w h0 hop ht => ?_⟩
  · rw [submit_first_textureRectangle h0 hop]
    simp [State.append, h0]
  · rw [submit_second_textureRectangle h1 hop, complete_eq_mapNext]
    simp [State.append, State.word0, h1]
  · rw [submit_one h0 hop] at ht
    exact cmdlen_of_complete_eq_next ht

/-! ### Unknown opcodes -/

/-- An opcode outside the map is dispatched to its diagnostic alone (R147). -/
theorem dispatch_unknown {s : State} (h : (opcodeOf s.word0).toNat ∉ knownOpcodes) :
    dispatch s = .next (s.emit [.unknownOpcode (opcodeOf s.word0)]) := by
  simp [dispatch, decodeWords_error_of_unknown _ h, execReject, execUnknownOpcode]

/-- At a boundary the word of an unknown opcode leaves the state it was taken in and its diagnostic. -/
theorem submit_unknown {w : Word} {s : State} (h0 : s.cmdlen = 0) (hu : (opcodeOf w).toNat ∉ knownOpcodes) :
    submit w s = .next ((s.taken w).emit [.unknownOpcode (opcodeOf w)]) := by
  have hl : s.cmdlen < 16 := by omega
  have hop : opcodeOf w ≠ 0x24#6 := fun h => hu (by rw [h]; decide)
  have hw0 : (s.append w hl).word0 = w := append_word0 w hl h0
  rw [submit_one h0 hop, dispatch_unknown (by rwa [hw0]), hw0, ← taken_eq w hl h0]
  rfl

/-- Settles O10: the opcode is rejected by the map, so only the diagnostic and completion act on the appended word. -/
theorem unknownOpcodeIsDropped : Obligations.UnknownOpcodeIsDropped := by
  unfold Obligations.UnknownOpcodeIsDropped
  intro s w h0 hu
  rw [← toNat_opcodeOf] at hu
  rw [submit_unknown h0 hu]
  rfl

end Sys2Proof.Machine
end

section
/-! SUPPORT. Sync Tile, the no-op barrier (spec/41_register_setters.md R163), and O16. -/

namespace Sys2Proof.Machine

/-- Opcode 0x28 selects Sync Tile, whatever the other bits and the second word hold (R126). -/
theorem decodeWords_syncTile {w0 : Word} (w1 : Word) (h : opcodeOf w0 = 0x28#6) :
    decodeWords w0 w1 = .ok .syncTile := by
  simp [decodeWords, h]

theorem exec_syncTile (s : State) : exec .syncTile s = .next s := rfl

/-- Completion of a word appended at a boundary leaves the state the word was taken in (R143, R148). -/
theorem complete_next_append {w : Word} {s : State} (hl : s.cmdlen < 16) (h0 : s.cmdlen = 0) :
    complete (.next (s.append w hl)) = .next (s.taken w) := by
  rw [← taken_eq w hl h0]
  rfl

/-- At a boundary a Sync Tile word is appended and completed, with no effect between the two. -/
theorem submit_syncTile {w : Word} {s : State} (h0 : s.cmdlen = 0) (hop : opcodeOf w = 0x28#6) :
    submit w s = .next (s.taken w) := by
  have hne : opcodeOf w ≠ 0x24#6 := by rw [hop]; decide
  rw [submit_one_ok h0 hne (decodeWords_syncTile 0 hop), exec_syncTile, complete_next_append _ h0]

/-- Settles O16: the handler answers its state, so the word leaves only the state it was taken in, whose outputs are
empty. -/
theorem syncTileDoesNothing : Obligations.SyncTileDoesNothing := by
  unfold Obligations.SyncTileDoesNothing
  exact ⟨exec_syncTile, fun _ _ h0 hop => ⟨submit_syncTile h0 hop, rfl, rfl⟩⟩

end Sys2Proof.Machine
end

section
/-! SUPPORT. The field reads as numbers (spec/40_assembler_dispatch.md R140, R141), and O1, O2. -/

namespace Sys2Proof.Machine

/-! ### Fields as numbers -/

/-- `ufield` divides and reduces (R10). -/
theorem ufield_eq (w : Word) (hi lo : Nat) : ufield w hi lo = w.toNat / 2 ^ lo % 2 ^ (hi - lo + 1) := by
  rw [ufield, Nat.shiftRight_eq_div_pow]

/-- The field at bits `n-1:0` is the word reduced. -/
theorem toNat_take_zero {n : Nat} (w : Word) {f : BitField n} (h : f.lo = 0) : (take w f).toNat = w.toNat % 2 ^ n := by
  simp [toNat_take, h]

/-- Settles O1: both reads are the shift and the mask. -/
theorem fieldReadIsShiftAndMask : Obligations.FieldReadIsShiftAndMask := by
  unfold Obligations.FieldReadIsShiftAndMask
  exact ⟨fun _ lo w => toNat_take w ⟨lo⟩, fun hi lo w => ufield_eq w hi lo⟩

/-! ### Signed fields -/

/-- The sign of a field is its top bit in the word. -/
theorem msb_take {n : Nat} (w : Word) (f : BitField (n + 1)) : (take w f).msb = w.getLsbD (f.lo + n) := by
  rw [BitVec.msb_eq_getLsbD_last, getLsbD_take]
  simp

/-- Two's complement: the field's number, less `2^n` where its top bit is 1 (R11). -/
theorem toInt_take {n : Nat} (w : Word) (f : BitField (n + 1)) :
    (take w f).toInt =
      if w.getLsbD (f.lo + n) then ((take w f).toNat : Int) - 2 ^ (n + 1) else (take w f).toNat := by
  rw [BitVec.toInt_eq_msb_cond, msb_take]
  norm_cast

/-- A texture-coordinate field is read by `sfield` (R127, R141). -/
theorem texCoord_take (w : Word) (f : BitField 16) : texCoord (take w f) = sfield w (f.lo + 15) f.lo := by
  rw [texCoord, toInt_take, sfield, ufield_eq, toNat_take, Nat.add_sub_cancel_left]

/-- Settles O2: a signed read is the two's complement of its field, and Texture Rectangle's four operands are such reads
of its second word. -/
theorem signedFieldsAreTwosComplement : Obligations.SignedFieldsAreTwosComplement := by
  unfold Obligations.SignedFieldsAreTwosComplement
  refine ⟨fun lo w _ => ?_, fun w0 w1 hop => ?_⟩
  · have hv := toInt_take w (⟨lo⟩ : BitField 16)
    rw [toNat_take] at hv
    change texCoord _ = _ at hv
    have hlo := BitVec.le_toInt (take w (⟨lo⟩ : BitField 16))
    have hhi := BitVec.toInt_lt (x := take w (⟨lo⟩ : BitField 16))
    refine ⟨texCoord_take w ⟨lo⟩, fun h => ?_, fun h => ?_, ?_, ?_⟩
    · simpa [h] using hv
    · simpa [h] using hv
    · rw [texCoord]; simpa using hlo
    · rw [texCoord]; omega
  · exact ⟨_, _, _, _, _, _, _, _, _, decodeWords_textureRectangle w1 hop, texCoord_take w1 Layout.s,
      texCoord_take w1 Layout.t, texCoord_take w1 Layout.dsdx, texCoord_take w1 Layout.dtdy⟩

end Sys2Proof.Machine
end

section
/-! SUPPORT. The opcode map one opcode at a time, and the encoder as its inverse (spec/30_encoding.md R126, R130, R131):
O3, O4, O6, O7. -/

namespace Sys2Proof.Machine

/-! ### What each opcode selects (R126), whatever the second word holds -/

theorem decodeWords_setScissor {w0 : Word} (w1 : Word) (h : opcodeOf w0 = 0x2D#6) :
    decodeWords w0 w1 = .ok (.setScissor (take w0 Layout.hiX) (take w0 Layout.hiY) (take w0 Layout.loX)
      (take w0 Layout.loY)) := by
  simp [decodeWords, h]

theorem decodeWords_setOtherModes {w0 : Word} (w1 : Word) (h : opcodeOf w0 = 0x2F#6) :
    decodeWords w0 w1 = .ok (.setOtherModes (take w0 Layout.cycle) w0) := by
  simp [decodeWords, h]

theorem decodeWords_loadTile {w0 : Word} (w1 : Word) (h : opcodeOf w0 = 0x34#6) :
    decodeWords w0 w1 = .ok (.loadTile (take w0 Layout.hiX) (take w0 Layout.hiY) (take w0 Layout.tile)
      (take w0 Layout.loX) (take w0 Layout.loY)) := by
  simp [decodeWords, h]

theorem decodeWords_setTile {w0 : Word} (w1 : Word) (h : opcodeOf w0 = 0x35#6) :
    decodeWords w0 w1 = .ok (decodeSetTile w0) := by
  simp [decodeWords, h]

theorem decodeWords_fillRectangle {w0 : Word} (w1 : Word) (h : opcodeOf w0 = 0x36#6) :
    decodeWords w0 w1 = .ok (.fillRectangle (take w0 Layout.hiX) (take w0 Layout.hiY) (take w0 Layout.loX)
      (take w0 Layout.loY)) := by
  simp [decodeWords, h]

theorem decodeWords_setFillColor {w0 : Word} (w1 : Word) (h : opcodeOf w0 = 0x37#6) :
    decodeWords w0 w1 = .ok (.setFillColor (take w0 Layout.color)) := by
  simp [decodeWords, h]

theorem decodeWords_setBlendColor {w0 : Word} (w1 : Word) (h : opcodeOf w0 = 0x39#6) :
    decodeWords w0 w1 = .ok (.setBlendColor (take w0 Layout.r) (take w0 Layout.g) (take w0 Layout.b)
      (take w0 Layout.a)) := by
  simp [decodeWords, h]

theorem decodeWords_setCombineMode {w0 : Word} (w1 : Word) (h : opcodeOf w0 = 0x3C#6) :
    decodeWords w0 w1 = .ok (.setCombineMode w0) := by
  simp [decodeWords, h]

theorem decodeWords_setTextureImage {w0 : Word} (w1 : Word) (h : opcodeOf w0 = 0x3D#6) :
    decodeWords w0 w1 = .ok (decodeImage .setTextureImage w0) := by
  simp [decodeWords, h]

theorem decodeWords_setColorImage {w0 : Word} (w1 : Word) (h : opcodeOf w0 = 0x3F#6) :
    decodeWords w0 w1 = .ok (decodeImage .setColorImage w0) := by
  simp [decodeWords, h]

/-- What is decoded is well formed and has the first word's opcode. -/
theorem decodeWords_ok {w0 w1 : Word} {i : Instr} (h : decodeWords w0 w1 = .ok i) :
    i.wellFormed = true ∧ i.opcode = opcodeOf w0 := by
  unfold decodeWords at h
  split at h
  case h_13 => cases h
  all_goals
    rename_i hop
    obtain rfl := Except.ok.inj h
    refine ⟨?_, BitVec.eq_of_toNat_eq hop.symm⟩
  case h_4 =>
    have hop : opcodeOf w0 = 0x2F#6 := BitVec.eq_of_toNat_eq hop
    simp [Instr.wellFormed, hop]
  case h_10 =>
    have hop : opcodeOf w0 = 0x3C#6 := BitVec.eq_of_toNat_eq hop
    simp [Instr.wellFormed, hop]
  all_goals rfl

/-! ### Decoding what was encoded -/

/-- The first word of an encoded instruction carries its opcode, and the words are as many as the opcode says (R110,
R129). -/
theorem encode_firstWord (i : Instr) : Laws.FirstWord.Statement i := by
  cases i with
  | textureRectangle => exact Laws.FirstWord.textureRectangle _ _ _ _ _ _ _ _ _
  | syncTile => exact Laws.FirstWord.syncTile
  | setScissor => exact Laws.FirstWord.setScissor _ _ _ _
  | setOtherModes => exact Laws.FirstWord.setOtherModes _ _
  | loadTile => exact Laws.FirstWord.loadTile _ _ _ _ _
  | setTile => exact Laws.FirstWord.setTile _ _ _ _ _ _ _ _ _ _ _ _ _ _
  | fillRectangle => exact Laws.FirstWord.fillRectangle _ _ _ _
  | setFillColor => exact Laws.FirstWord.setFillColor _
  | setBlendColor => exact Laws.FirstWord.setBlendColor _ _ _ _
  | setCombineMode => exact Laws.FirstWord.setCombineMode _
  | setTextureImage => exact Laws.FirstWord.setTextureImage _ _ _ _
  | setColorImage => exact Laws.FirstWord.setColorImage _ _ _ _

theorem opcodeOf_of_encode {i : Instr} {w : Word} {rest : List Word} (hi : i.wellFormed = true)
    (he : encode i = w :: rest) : opcodeOf w = i.opcode := by
  obtain ⟨w0, _, he', hop, -⟩ := encode_firstWord i hi
  obtain ⟨rfl, -⟩ := List.cons_eq_cons.mp (he.symm.trans he')
  exact hop

/-- An instruction of one word is decoded from that word. -/
theorem decode_of_encode_singleton {i : Instr} {w : Word} (hi : i.wellFormed = true) (he : encode i = [w]) :
    decode (encode i) = decodeWords w 0 := by
  obtain ⟨_, _, -, -, hlen⟩ := encode_firstWord i hi
  have hone : words (opcodeOf w) = 1 := by rw [opcodeOf_of_encode hi he, ← hlen, he]; rfl
  rw [he]
  simp [decode, hone]

/-- The image commands' operands read back (R113). -/
theorem decodeImage_encodeImage (k : BitVec 3 → BitVec 2 → BitVec 10 → BitVec 26 → Instr) (op : BitVec 6)
    (fmt : BitVec 3) (size : BitVec 2) (width : BitVec 10) (addr : BitVec 26) :
    decodeImage k (encodeImage op fmt size width addr) = k fmt size width addr := by
  simp (disch := decide) only [decodeImage, encodeImage, take_or, take_place_same, take_place_other, BitVec.or_zero,
    BitVec.zero_or]

/-- Settles O3: the opcode selects the instruction's arm, and each of its fields reads back, since the fields do not
overlap. -/
theorem decodeOfEncode : Obligations.DecodeOfEncode := by
  unfold Obligations.DecodeOfEncode
  intro i hi
  cases i with
  | textureRectangle =>
    rw [encode, decode, decodeWords_textureRectangle _ (opcodeOf_of_encode hi rfl)]
    simp (disch := decide) only [decodeTextureRectangle, take_or, take_place_same, take_place_other, BitVec.or_zero,
      BitVec.zero_or]
  | syncTile => rw [decode_of_encode_singleton hi rfl, decodeWords_syncTile _ (opcodeOf_of_encode hi rfl)]
  | setScissor =>
    rw [decode_of_encode_singleton hi rfl, decodeWords_setScissor _ (opcodeOf_of_encode hi rfl)]
    simp (disch := decide) only [take_or, take_place_same, take_place_other, BitVec.or_zero, BitVec.zero_or]
  | setOtherModes =>
    rw [decode_of_encode_singleton hi rfl, decodeWords_setOtherModes _ (opcodeOf_of_encode hi rfl)]
    simp only [Instr.wellFormed, Bool.and_eq_true, beq_iff_eq] at hi
    rw [hi.2]
  | loadTile =>
    rw [decode_of_encode_singleton hi rfl, decodeWords_loadTile _ (opcodeOf_of_encode hi rfl)]
    simp (disch := decide) only [take_or, take_place_same, take_place_other, BitVec.or_zero, BitVec.zero_or]
  | setTile =>
    rw [decode_of_encode_singleton hi rfl, decodeWords_setTile _ (opcodeOf_of_encode hi rfl)]
    simp (disch := decide) only [decodeSetTile, take_or, take_place_same, take_place_other, BitVec.or_zero,
      BitVec.zero_or]
  | fillRectangle =>
    rw [decode_of_encode_singleton hi rfl, decodeWords_fillRectangle _ (opcodeOf_of_encode hi rfl)]
    simp (disch := decide) only [take_or, take_place_same, take_place_other, BitVec.or_zero, BitVec.zero_or]
  | setFillColor =>
    rw [decode_of_encode_singleton hi rfl, decodeWords_setFillColor _ (opcodeOf_of_encode hi rfl)]
    simp (disch := decide) only [take_or, take_place_same, take_place_other, BitVec.zero_or]
  | setBlendColor =>
    rw [decode_of_encode_singleton hi rfl, decodeWords_setBlendColor _ (opcodeOf_of_encode hi rfl)]
    simp (disch := decide) only [take_or, take_place_same, take_place_other, BitVec.or_zero, BitVec.zero_or]
  | setCombineMode => rw [decode_of_encode_singleton hi rfl, decodeWords_setCombineMode _ (opcodeOf_of_encode hi rfl)]
  | setTextureImage =>
    rw [decode_of_encode_singleton hi rfl, decodeWords_setTextureImage _ (opcodeOf_of_encode hi rfl),
      decodeImage_encodeImage]
  | setColorImage =>
    rw [decode_of_encode_singleton hi rfl, decodeWords_setColorImage _ (opcodeOf_of_encode hi rfl),
      decodeImage_encodeImage]

/-- Settles O4: the decoder puts only well-formed terms together, and those read back. -/
theorem decodedInstructionsAreWellFormed : Obligations.DecodedInstructionsAreWellFormed := by
  unfold Obligations.DecodedInstructionsAreWellFormed
  intro w0 w1 i h
  obtain ⟨hwf, hop⟩ := decodeWords_ok h
  exact ⟨hwf, by rw [hop, toNat_opcodeOf], decodeOfEncode i hwf⟩

/-! ### Ignored bits -/

theorem take_and {n : Nat} (x y : Word) (f : BitField n) : take (x &&& y) f = take x f &&& take y f := by
  simp only [take_eq_extract, BitVec.extractLsb'_and]

/-- Words that agree under a mask agree in every field the mask covers. -/
theorem take_congr_of_mask {n : Nat} {w v m : Word} (h : w &&& m = v &&& m) (f : BitField n)
    (hf : take m f = BitVec.allOnes n) : take w f = take v f := by
  have := congrArg (take · f) h
  simpa [take_and, hf] using this

/-- Settles O6: each mask covers the opcode and the fields its command decodes. -/
theorem ignoredBitsDoNotMatter : Obligations.IgnoredBitsDoNotMatter := by
  unfold Obligations.IgnoredBitsDoNotMatter
  refine ⟨fun e he w v x hop h => ?_, fun w x y hop => decodeWords_second x y hop⟩
  simp only [List.mem_cons, List.not_mem_nil, or_false] at he
  have hop' : opcodeOf v = e.1 := by
    rw [← hop]
    refine (take_congr_of_mask h Layout.op ?_).symm
    rcases he with rfl | rfl | rfl | rfl | rfl | rfl | rfl | rfl | rfl | rfl <;> decide
  have hf {n : Nat} (f : BitField n) := take_congr_of_mask h f
  rcases he with rfl | rfl | rfl | rfl | rfl | rfl | rfl | rfl | rfl | rfl
  · rw [decodeWords_textureRectangle x hop, decodeWords_textureRectangle x hop']
    simp (disch := decide) only [decodeTextureRectangle, hf]
  · rw [decodeWords_syncTile x hop, decodeWords_syncTile x hop']
  · rw [decodeWords_setScissor x hop, decodeWords_setScissor x hop']
    simp (disch := decide) only [hf]
  · rw [decodeWords_loadTile x hop, decodeWords_loadTile x hop']
    simp (disch := decide) only [hf]
  · rw [decodeWords_setTile x hop, decodeWords_setTile x hop']
    simp (disch := decide) only [decodeSetTile, hf]
  · rw [decodeWords_fillRectangle x hop, decodeWords_fillRectangle x hop']
    simp (disch := decide) only [hf]
  · rw [decodeWords_setFillColor x hop, decodeWords_setFillColor x hop']
    simp (disch := decide) only [hf]
  · rw [decodeWords_setBlendColor x hop, decodeWords_setBlendColor x hop']
    simp (disch := decide) only [hf]
  · rw [decodeWords_setTextureImage x hop, decodeWords_setTextureImage x hop']
    simp (disch := decide) only [decodeImage, hf]
  · rw [decodeWords_setColorImage x hop, decodeWords_setColorImage x hop']
    simp (disch := decide) only [decodeImage, hf]

/-- Settles O7: each word's opcode selects its command, and the fields are read from it. -/
theorem writtenWordsDecode : Obligations.WrittenWordsDecode := by
  unfold Obligations.WrittenWordsDecode
  exact ⟨rfl, rfl, rfl, rfl, rfl, rfl, rfl⟩

end Sys2Proof.Machine
end

section
/-! SUPPORT. The nine register-setting commands (spec/41_register_setters.md R160 to R170): what each writes and emits,
their common laws, and O13, O14, O15, O17 to O24. -/

namespace Sys2Proof.Machine

/-! ### Operands as numbers (R123 to R127, R42, R16) -/

@[simp] theorem toNat_coord (f : BitVec 12) : (coord f).toNat = f.toNat := by
  rw [coord, BitVec.toNat_setWidth, Nat.mod_eq_of_lt (by omega)]

theorem bppBits_bppOfSize (size : BitVec 2) : bppBits (bppOfSize size) = 4 <<< size.toNat := by
  revert size; decide

theorem getElem?_colorFormatOf (fmt : BitVec 3) :
    [ColorFormat.rgba, .yuv, .ci, .ia, .i, .rgba, .rgba, .rgba][fmt.toNat]? = some (colorFormatOf fmt) := by
  revert fmt; decide

theorem formatDiag_eq (fmt : BitVec 3) :
    formatDiag fmt = if 5 ≤ fmt.toNat then [.unknownFormat fmt] else [] := by
  revert fmt; decide

theorem getElem?_cycleModeOf (cycle : BitVec 2) :
    [CycleMode.one, .two, .copy, .fill][cycle.toNat]? = some (cycleModeOf cycle) := by
  revert cycle; decide

theorem maskOf_eq (n : BitVec 4) : maskOf n = 2 ^ n.toNat - 1 := by
  rw [maskOf, Nat.one_shiftLeft]

/-- A one-bit field is set exactly where its bit of the word is 1. -/
theorem take_eq_one_iff (w : Word) (f : BitField 1) : take w f = 1#1 ↔ w.toNat / 2 ^ f.lo % 2 = 1 := by
  rw [← BitVec.toNat_inj, toNat_take]
  rfl

/-- Bit `k` of four bytes in a row. -/
theorem getLsbD_append_bytes (b3 b2 b1 b0 : Byte) (k : Nat) :
    BitVec.getLsbD (w := 32) (b3 ++ b2 ++ b1 ++ b0) k =
      if k < 8 then b0.getLsbD k else if k - 8 < 8 then b1.getLsbD (k - 8)
      else if k - 8 - 8 < 8 then b2.getLsbD (k - 8 - 8) else b3.getLsbD (k - 8 - 8 - 8) :=
  BitVec.getLsbD_append.trans <| congrArg (ite _ _) <| BitVec.getLsbD_append.trans <| congrArg (ite _ _)
    BitVec.getLsbD_append

/-- Byte `n` of a packed colour, counted from the least significant. -/
theorem colorByte_append (b3 b2 b1 b0 : Byte) (n : Fin 4) :
    colorByte (b3 ++ b2 ++ b1 ++ b0) (8 * n) = [b0, b1, b2, b3][n] := by
  ext k hk
  rw [colorByte, BitVec.getElem_extractLsb', getLsbD_append_bytes]
  fin_cases n
  · simp [hk]
  · simp [hk]
  · simp [hk, show ¬ 16 + k < 8 by omega, show ¬ 16 + k - 8 < 8 by omega, show 16 + k - 8 - 8 = k by omega]
  · simp [hk, show ¬ 24 + k < 8 by omega, show ¬ 24 + k - 8 < 8 by omega, show ¬ 24 + k - 8 - 8 < 8 by omega,
      show 24 + k - 8 - 8 - 8 = k by omega]

/-- The four bytes of a packed colour read back, in either order (R16, R167). -/
theorem abgr8888_append (order : ChannelOrder) (b3 b2 b1 b0 : Byte) :
    abgr8888 order (b3 ++ b2 ++ b1 ++ b0) =
      match order with
      | .lsbFirst => ⟨b3, b2, b1, b0⟩
      | .msbFirst => ⟨b0, b1, b2, b3⟩ := by
  have h0 : colorByte (b3 ++ b2 ++ b1 ++ b0) 0 = b0 := colorByte_append b3 b2 b1 b0 0
  have h1 : colorByte (b3 ++ b2 ++ b1 ++ b0) 8 = b1 := colorByte_append b3 b2 b1 b0 1
  have h2 : colorByte (b3 ++ b2 ++ b1 ++ b0) 16 = b2 := colorByte_append b3 b2 b1 b0 2
  have h3 : colorByte (b3 ++ b2 ++ b1 ++ b0) 24 = b3 := colorByte_append b3 b2 b1 b0 3
  cases order <;> simp [abgr8888, h3, h2, h1, h0]

/-! ### Writes to the tile file -/

theorem setTile_setTile (s : State) (i : BitVec 3) (t u : Tile) : (s.setTile i t).setTile i u = s.setTile i u := by
  simp [State.setTile]

theorem setTile_comm (s : State) {i j : BitVec 3} (t u : Tile) (h : i ≠ j) :
    (s.setTile i t).setTile j u = (s.setTile j u).setTile i t := by
  have hn : i.toNat ≠ j.toNat := fun e => h (BitVec.eq_of_toNat_eq e)
  simp [State.setTile, Vector.set_comm _ _ hn]

theorem setTileFormat_setTileFormat (s : State) (i : BitVec 3) (f g : TileFormat) :
    (s.setTileFormat i f).setTileFormat i g = s.setTileFormat i g := by
  rw [State.setTileFormat, tile_setTileFormat_same, State.setTileFormat, setTile_setTile, State.setTileFormat]

theorem setTileFormat_comm (s : State) {i j : BitVec 3} (f g : TileFormat) (h : i ≠ j) :
    (s.setTileFormat i f).setTileFormat j g = (s.setTileFormat j g).setTileFormat i f := by
  rw [State.setTileFormat, tile_setTileFormat_ne s f h.symm, State.setTileFormat, setTile_comm s _ _ h,
    State.setTileFormat, tile_setTileFormat_ne s g h, State.setTileFormat]

/-! ### What a setter writes and emits -/

/-- A tile's format fields from Set Tile's operands (R125, R165). -/
def tileFormatOf (fmt : BitVec 3) (size : BitVec 2) (line tmem : BitVec 9) (palette : BitVec 4)
    (clampT mirrorT : BitVec 1) (maskT shiftT : BitVec 4) (clampS mirrorS : BitVec 1) (maskS shiftS : BitVec 4) :
    TileFormat where
  colorFormat := colorFormatOf fmt
  bpp         := bppOfSize size
  pitch       := line.toNat * 8
  tmemAddr    := tmem.toNat * 8
  palette     := palette
  clampS      := clampS == 1#1
  clampT      := clampT == 1#1
  mirrorS     := mirrorS == 1#1
  mirrorT     := mirrorT == 1#1
  maskS       := maskOf maskS
  maskT       := maskOf maskT
  shiftS      := shiftS
  shiftT      := shiftT

/-- The registers after a register-setting command, its events left out; a drawing command writes none here
(`exec_setter`). -/
def writeSlot (i : Instr) (s : State) : State :=
  match i with
  | .setScissor x0 y0 x1 y1 => { s with clip := ⟨coord x0, coord y0, coord x1, coord y1⟩ }
  | .setTextureImage fmt size width addr => { s with tex := imageOf fmt size width addr }
  | .setColorImage fmt size width addr => { s with fb := imageOf fmt size width addr }
  | .setOtherModes cycle raw => { s with cycleMode := cycleModeOf cycle, pp := { s.pp with otherModes := raw } }
  | .setTile fmt size line tmem tile palette clampT mirrorT maskT shiftT clampS mirrorS maskS shiftS =>
      s.setTileFormat tile
        (tileFormatOf fmt size line tmem palette clampT mirrorT maskT shiftT clampS mirrorS maskS shiftS)
  | .setCombineMode raw => { s with pp := { s.pp with combine := raw } }
  | .setBlendColor r g b a =>
      { s with pp := { s.pp with blend := abgr8888 s.params.channelNameOrder (r ++ g ++ b ++ a) } }
  | .setFillColor color => { s with fillColor := color }
  | .syncTile => s
  | .loadTile .. => s
  | .textureRectangle .. => s
  | .fillRectangle .. => s

/-- The events of a register-setting command (`exec_setter`); only Set Blend Color's depend on a parameter. -/
def setterEvents (p : Params) : Instr → List Event
  | .setTextureImage fmt _ _ _ => formatDiag fmt
  | .setColorImage fmt _ _ _ => formatDiag fmt
  | .setOtherModes _ raw => [.ppOtherModes raw]
  | .setTile fmt _ _ _ _ _ _ _ _ _ _ _ _ _ => formatDiag fmt
  | .setCombineMode raw => [.ppCombine raw]
  | .setBlendColor r g b a => [.ppBlendColor (abgr8888 p.channelNameOrder (r ++ g ++ b ++ a))]
  | .setScissor .. => []
  | .setFillColor _ => []
  | .syncTile => []
  | .loadTile .. => []
  | .textureRectangle .. => []
  | .fillRectangle .. => []

theorem emit_nil (s : State) : s.emit [] = s := by simp [State.emit]

/-- A case split of the twelve commands: the nine setters at once, and each drawing command (R43). -/
theorem setter_or_drawing {motive : Instr → Prop} (setter : ∀ i, setterSlot i ≠ none → motive i)
    (loadTile : ∀ s0 t0 i s1 t1, motive (.loadTile s0 t0 i s1 t1))
    (textureRectangle : ∀ x1 y1 i x0 y0 sc tc dsdx dtdy, motive (.textureRectangle x1 y1 i x0 y0 sc tc dsdx dtdy))
    (fillRectangle : ∀ x1 y1 x0 y0, motive (.fillRectangle x1 y1 x0 y0)) (i : Instr) : motive i := by
  cases i
  case loadTile => exact loadTile ..
  case textureRectangle => exact textureRectangle ..
  case fillRectangle => exact fillRectangle ..
  all_goals exact setter _ nofun

/-- A register-setting command writes its registers and emits its events, in every state. -/
theorem exec_setter {i : Instr} (s : State) (h : setterSlot i ≠ none) :
    exec i s = .next ((writeSlot i s).emit (setterEvents s.params i)) := by
  cases i
  case textureRectangle | loadTile | fillRectangle => exact absurd rfl h
  case setScissor | setFillColor | syncTile => rw [setterEvents, emit_nil]; rfl
  all_goals rfl

/-! ### The common laws of the setters (R169) -/

theorem writeSlot_emit (i : Instr) (s : State) (es : List Event) :
    writeSlot i (s.emit es) = (writeSlot i s).emit es := by
  cases i <;> rfl

@[simp] theorem writeSlot_params (i : Instr) (s : State) : (writeSlot i s).params = s.params := by
  cases i <;> rfl

@[simp] theorem writeSlot_events (i : Instr) (s : State) : (writeSlot i s).events = s.events := by
  cases i <;> rfl

theorem writeSlot_writeSlot_same (i : Instr) (s : State) : writeSlot i (writeSlot i s) = writeSlot i s := by
  cases i
  case setTile => exact setTileFormat_setTileFormat ..
  all_goals rfl

/-- Setters of different slots write different state (R43). -/
theorem writeSlot_comm {i j : Instr} {a b : Slot} (s : State) (hi : setterSlot i = some a) (hj : setterSlot j = some b)
    (hab : a ≠ b) : writeSlot i (writeSlot j s) = writeSlot j (writeSlot i s) := by
  have hne (h : setterSlot i = setterSlot j) : False := hab (Option.some.inj (hi.symm.trans (h.trans hj)))
  cases i <;> cases j
  case setTile.setTile => exact setTileFormat_comm s _ _ fun h => hne (by rw [h]; rfl)
  case setScissor.setScissor | setTextureImage.setTextureImage | setColorImage.setColorImage
      | setOtherModes.setOtherModes | setCombineMode.setCombineMode | setBlendColor.setBlendColor
      | setFillColor.setFillColor => exact (hne rfl).elim
  all_goals rfl

/-- Settles O23: the second run writes the same registers again and emits the same events. -/
theorem settersAreIdempotent : Obligations.SettersAreIdempotent := by
  unfold Obligations.SettersAreIdempotent
  intro i s h
  refine ⟨_, setterEvents s.params i, exec_setter s h, by simp, ?_⟩
  rw [exec_setter _ h, writeSlot_emit, writeSlot_writeSlot_same]
  simp [State.emit]

/-- Settles O24: the two writes commute and an event list is all that is left different. -/
theorem settersOfDisjointStateCommute : Obligations.SettersOfDisjointStateCommute := by
  unfold Obligations.SettersOfDisjointStateCommute
  intro i j s a b hi hj hab
  have hi' : setterSlot i ≠ none := by simp [hi]
  have hj' : setterSlot j ≠ none := by simp [hj]
  refine ⟨_, _, _, _, exec_setter s hi', exec_setter _ hj', exec_setter s hj', exec_setter _ hi', ?_⟩
  simp only [writeSlot_emit, writeSlot_comm s hi hj hab]
  rfl

/-! ### A setter's word at a command boundary -/

/-- A setter neither reads nor writes the length, so its word acts on the state the word is taken in (R143, R148). -/
theorem submit_setter {w : Word} {s : State} {i : Instr} (h0 : s.cmdlen = 0) (hd : decodeWords w 0 = .ok i)
    (hi : setterSlot i ≠ none) : submit w s = exec i (s.taken w) := by
  have hop : opcodeOf w ≠ 0x24#6 := by
    intro h
    rw [decodeWords_textureRectangle 0 h] at hd
    obtain rfl := Except.ok.inj hd
    exact hi rfl
  have hw (u : State) : writeSlot i { u with cmdlen := 0 } = { writeSlot i u with cmdlen := 0 } := by
    cases i <;> rfl
  rw [submit_one_ok h0 hop hd, ← taken_eq w (by omega) h0, exec_setter _ hi, exec_setter _ hi, hw]
  rfl

/-! The fields that the setters' operands are computed from, at the bits of R113, R115 and R117. -/

theorem toNat_take_fmt (w : Word) : (take w Layout.fmt).toNat = w.toNat / 2 ^ 53 % 2 ^ 3 := toNat_take w _
theorem toNat_take_size (w : Word) : (take w Layout.size).toNat = w.toNat / 2 ^ 51 % 2 ^ 2 := toNat_take w _
theorem toNat_take_width (w : Word) : (take w Layout.width).toNat = w.toNat / 2 ^ 32 % 2 ^ 10 := toNat_take w _
theorem toNat_take_cycle (w : Word) : (take w Layout.cycle).toNat = w.toNat / 2 ^ 52 % 2 ^ 2 := toNat_take w _
theorem toNat_take_line (w : Word) : (take w Layout.line).toNat = w.toNat / 2 ^ 41 % 2 ^ 9 := toNat_take w _
theorem toNat_take_tmem (w : Word) : (take w Layout.tmem).toNat = w.toNat / 2 ^ 32 % 2 ^ 9 := toNat_take w _
theorem toNat_take_tile (w : Word) : (take w Layout.tile).toNat = w.toNat / 2 ^ 24 % 2 ^ 3 := toNat_take w _
theorem toNat_take_maskT (w : Word) : (take w Layout.maskT).toNat = w.toNat / 2 ^ 14 % 2 ^ 4 := toNat_take w _
theorem toNat_take_maskS (w : Word) : (take w Layout.maskS).toNat = w.toNat / 2 ^ 4 % 2 ^ 4 := toNat_take w _

/-- The diagnostic of a word's format field, in the word's own terms. -/
theorem formatDiag_take_fmt (w : Word) :
    formatDiag (take w Layout.fmt) =
      if 5 ≤ w.toNat / 2 ^ 53 % 2 ^ 3 then [.unknownFormat (BitVec.ofNat 3 (w.toNat / 2 ^ 53 % 2 ^ 3))] else [] := by
  rw [← toNat_take_fmt, formatDiag_eq, BitVec.ofNat_toNat, BitVec.setWidth_eq]

/-- The image of a word's fields, in the word's own terms (R113, R123). -/
theorem imageOf_take (w : Word) :
    let img := imageOf (take w Layout.fmt) (take w Layout.size) (take w Layout.width) (take w Layout.addr)
    bppBits img.bpp = 4 <<< (w.toNat / 2 ^ 51 % 2 ^ 2) ∧ img.width = w.toNat / 2 ^ 32 % 2 ^ 10 + 1 ∧
      img.dramAddr.toNat = w.toNat % 2 ^ 26 ∧
      [ColorFormat.rgba, .yuv, .ci, .ia, .i, .rgba, .rgba, .rgba][w.toNat / 2 ^ 53 % 2 ^ 3]? =
        some img.colorFormat := by
  rw [← toNat_take_fmt, ← toNat_take_size, ← toNat_take_width]
  exact ⟨bppBits_bppOfSize _, rfl, toNat_take_zero w rfl, getElem?_colorFormatOf _⟩

/-- Settles O13: the handler stores the zero-extended coordinates, and the word's operands are its fields. -/
theorem setScissorReplacesClip : Obligations.SetScissorReplacesClip := by
  unfold Obligations.SetScissorReplacesClip
  refine ⟨fun x0 y0 x1 y1 s => ⟨_, rfl, rfl, by simp⟩, fun w s h0 hop => ?_⟩
  rw [submit_setter h0 (decodeWords_setScissor 0 hop) nofun]
  refine ⟨_, rfl, rfl, ?_⟩
  simp only [toNat_coord]
  exact ⟨toNat_take w Layout.hiX, toNat_take w Layout.hiY, toNat_take w Layout.loX, toNat_take_zero w rfl⟩

/-- Settles O14: the handler stores the image of the operands, and the word's operands are its fields. -/
theorem setTextureImageReplacesTex : Obligations.SetTextureImageReplacesTex := by
  unfold Obligations.SetTextureImageReplacesTex
  refine ⟨fun fmt size width addr s => ?_, fun w s h0 hop => ?_⟩
  · rw [← formatDiag_eq]
    exact ⟨_, rfl, rfl, bppBits_bppOfSize size, rfl, rfl, getElem?_colorFormatOf fmt, rfl⟩
  · rw [submit_setter h0 (decodeWords_setTextureImage 0 hop) nofun, ← formatDiag_take_fmt]
    exact ⟨_, rfl, rfl, imageOf_take w⟩

/-- Settles O15: the handler stores the image of the operands, and the word's operands are its fields. -/
theorem setColorImageReplacesFb : Obligations.SetColorImageReplacesFb := by
  unfold Obligations.SetColorImageReplacesFb
  refine ⟨fun fmt size width addr s => ?_, fun w s h0 hop => ?_⟩
  · rw [← formatDiag_eq]
    exact ⟨_, rfl, rfl, bppBits_bppOfSize size, rfl, rfl, getElem?_colorFormatOf fmt, rfl⟩
  · rw [submit_setter h0 (decodeWords_setColorImage 0 hop) nofun, ← formatDiag_take_fmt]
    exact ⟨_, rfl, rfl, imageOf_take w⟩

/-- Settles O17: the handler stores the mode of the code and forwards the word, and the word's code is its field. -/
theorem setOtherModesSetsCycleModeAndForwards : Obligations.SetOtherModesSetsCycleModeAndForwards := by
  unfold Obligations.SetOtherModesSetsCycleModeAndForwards
  refine ⟨fun cycle raw s => ⟨_, rfl, getElem?_cycleModeOf cycle⟩, fun w s h0 hop => ?_⟩
  rw [submit_setter h0 (decodeWords_setOtherModes 0 hop) nofun, ← toNat_take_cycle]
  exact ⟨_, rfl, getElem?_cycleModeOf _⟩

/-- Settles O19: the handler forwards the word and mirrors it. -/
theorem setCombineModeForwardsItsWord : Obligations.SetCombineModeForwardsItsWord := by
  unfold Obligations.SetCombineModeForwardsItsWord
  refine ⟨fun raw s => rfl, fun w s h0 hop => ?_⟩
  rw [submit_setter h0 (decodeWords_setCombineMode 0 hop) nofun]
  rfl

/-- Settles O20: the handler packs its four bytes, which read back in the order of the parameter. -/
theorem setBlendColorForwardsFourChannels : Obligations.SetBlendColorForwardsFourChannels := by
  unfold Obligations.SetBlendColorForwardsFourChannels
  refine ⟨fun b3 b2 b1 b0 s => ⟨_, rfl, fun ho => ?_, fun ho => ?_⟩, fun w s h0 hop => ?_⟩
  · rw [ho, abgr8888_append]
  · rw [ho, abgr8888_append]
  · rw [submit_setter h0 (decodeWords_setBlendColor 0 hop) nofun]
    refine ⟨_, rfl, fun ho => ?_, fun ho => ?_⟩
    · rw [show (s.taken w).params = s.params from rfl, ho, abgr8888_append]
      exact ⟨toNat_take w Layout.r, toNat_take w Layout.g, toNat_take w Layout.b, toNat_take_zero w rfl⟩
    · rw [show (s.taken w).params = s.params from rfl, ho, abgr8888_append]
      exact ⟨toNat_take w Layout.r, toNat_take w Layout.g, toNat_take w Layout.b, toNat_take_zero w rfl⟩

/-- Settles O21: the handler stores its operand, and the word's operand is its low half. -/
theorem setFillColorStoresTheRawValue : Obligations.SetFillColorStoresTheRawValue := by
  unfold Obligations.SetFillColorStoresTheRawValue
  refine ⟨fun color s => rfl, fun w s h0 hop => ?_⟩
  rw [submit_setter h0 (decodeWords_setFillColor 0 hop) nofun]
  exact ⟨_, rfl, rfl, toNat_take_zero w rfl⟩

/-- Settles O18: the handler replaces the indexed tile's format fields, and the word's operands are its fields. -/
theorem setTileReplacesFormatFields : Obligations.SetTileReplacesFormatFields := by
  unfold Obligations.SetTileReplacesFormatFields
  refine ⟨fun fmt size line tmem i palette clampT mirrorT maskT shiftT clampS mirrorS maskS shiftS s => ?_,
    fun w s i h0 hop hi => ?_⟩
  · rw [← formatDiag_eq]
    refine ⟨_, exec_setter s nofun, rfl, fun j hj => tile_setTileFormat_ne s _ hj, ?_⟩
    simp only [writeSlot, tile_emit, tile_setTileFormat_same]
    exact ⟨trivial, getElem?_colorFormatOf fmt, bppBits_bppOfSize size, rfl, rfl, rfl, beq_iff_eq, beq_iff_eq,
      beq_iff_eq, beq_iff_eq, maskOf_eq maskS, maskOf_eq maskT, rfl, rfl⟩
  · obtain rfl : i = take w Layout.tile := BitVec.eq_of_toNat_eq (hi.trans (toNat_take_tile w).symm)
    rw [submit_setter h0 (decodeWords_setTile 0 hop) nofun, decodeSetTile]
    refine ⟨_, exec_setter _ nofun, ?_, fun j hj => tile_setTileFormat_ne (s.taken w) _ hj, ?_⟩
    · rw [← formatDiag_take_fmt]; rfl
    simp only [writeSlot, tile_emit, tile_setTileFormat_same]
    refine ⟨rfl, ?_, ?_, ?_, ?_, toNat_take w Layout.palette, beq_iff_eq.trans (take_eq_one_iff w Layout.clampT),
      beq_iff_eq.trans (take_eq_one_iff w Layout.mirrorT), ?_, toNat_take w Layout.shiftT,
      beq_iff_eq.trans (take_eq_one_iff w Layout.clampS), beq_iff_eq.trans (take_eq_one_iff w Layout.mirrorS), ?_,
      toNat_take_zero w rfl⟩
    · rw [← toNat_take_fmt]; exact getElem?_colorFormatOf _
    · rw [← toNat_take_size]; exact bppBits_bppOfSize _
    · rw [← toNat_take_line]; rfl
    · rw [← toNat_take_tmem]; rfl
    · rw [← toNat_take_maskT]; exact maskOf_eq _
    · rw [← toNat_take_maskS]; exact maskOf_eq _

/-! ### Unknown format codes (R170) -/

theorem formatCodes_unknown {fmt : BitVec 3} (h : 5 ≤ fmt.toNat) : formatCodes fmt = none := by
  revert fmt; decide

/-- A setter that writes what another writes and emits one event more. -/
theorem exec_setter_one_more_event {i j : Instr} {s : State} {e : Event} (hi : setterSlot i ≠ none)
    (hj : setterSlot j ≠ none) (hw : writeSlot j s = writeSlot i s)
    (he : setterEvents s.params j = setterEvents s.params i ++ [e]) :
    ∃ t, exec i s = .next t ∧ exec j s = .next { t with events := t.events ++ [e] } := by
  refine ⟨_, exec_setter s hi, ?_⟩
  rw [exec_setter s hj, hw, he]
  simp [State.emit]

/-- Settles O22: RGBA, the format of code 0, is substituted, and the diagnostic is the one event more. -/
theorem unknownFormatCodeActsAsCodeZero : Obligations.UnknownFormatCodeActsAsCodeZero := by
  unfold Obligations.UnknownFormatCodeActsAsCodeZero
  intro fmt size s h
  have hc : colorFormatOf fmt = colorFormatOf 0 := by rw [colorFormatOf, formatCodes_unknown h]; rfl
  have hd : formatDiag fmt = formatDiag 0 ++ [.unknownFormat fmt] := by rw [formatDiag, formatCodes_unknown h]; rfl
  refine ⟨fun width addr => exec_setter_one_more_event nofun nofun ?_ hd,
    fun width addr => exec_setter_one_more_event nofun nofun ?_ hd,
    fun line tmem i pal ct mt kt ht cs ms ks hs => exec_setter_one_more_event nofun nofun ?_ hd⟩
  · simp [writeSlot, imageOf, hc]
  · simp [writeSlot, imageOf, hc]
  · simp [writeSlot, tileFormatOf, hc]

end Sys2Proof.Machine
end

section
/-! SUPPORT. The ways a command can complete, said once for all twelve, and the tile write discipline and write sets of
spec/10_state.md R36 and R43: O25, O47. -/

namespace Sys2Proof.Machine

/-- The ways a command answers a next state: a setter writes and emits, a drawing command faults or finishes. Load Tile
stores its rectangle before either (R191). -/
inductive Effect (s : State) : Instr → State → Prop where
  | setter {i : Instr} (h : setterSlot i ≠ none) : Effect s i ((writeSlot i s).emit (setterEvents s.params i))
  | loadFault (s0 t0 : BitVec 12) (i : BitVec 3) (s1 t1 : BitVec 12) (f : FaultReport) :
      Effect s (.loadTile s0 t0 i s1 t1) ((s.setTileRect i (loadRect s0 t0 s1 t1)).raised f)
  | load (s0 t0 : BitVec 12) (i : BitVec 3) (s1 t1 : BitVec 12)
      (hfits : loadFits (s.setTileRect i (loadRect s0 t0 s1 t1)) i (loadRect s0 t0 s1 t1) = true) :
      Effect s (.loadTile s0 t0 i s1 t1)
        ((s.setTileRect i (loadRect s0 t0 s1 t1)).loadDone i (loadRect s0 t0 s1 t1))
  | drawFault (x1 y1 : BitVec 12) (i : BitVec 3) (x0 y0 : BitVec 12) (sc tc dsdx dtdy : BitVec 16) (f : FaultReport) :
      Effect s (.textureRectangle x1 y1 i x0 y0 sc tc dsdx dtdy) (s.raised f)
  | draw (x1 y1 : BitVec 12) (i : BitVec 3) (x0 y0 : BitVec 12) (sc tc dsdx dtdy : BitVec 16) (r : RawRect)
      (b d : CoordPair) : Effect s (.textureRectangle x1 y1 i x0 y0 sc tc dsdx dtdy) (s.drawDone i r b d)
  | fillFault (x1 y1 x0 y0 : BitVec 12) (f : FaultReport) : Effect s (.fillRectangle x1 y1 x0 y0) (s.raised f)
  | flatFill (x1 y1 x0 y0 : BitVec 12) (r : RawRect) : Effect s (.fillRectangle x1 y1 x0 y0) (s.flatFillDone r)
  | pipelineFill (x1 y1 x0 y0 : BitVec 12) (r : RawRect) :
      Effect s (.fillRectangle x1 y1 x0 y0) (s.pipelineFillDone r)

/-- Every next state a command answers is one of its effects. -/
theorem exec_effect {i : Instr} {s t : State} (h : exec i s = .next t) : Effect s i t := by
  cases i using setter_or_drawing with
  | setter i hi =>
    obtain rfl := Host.Outcome.next.inj ((exec_setter s hi).symm.trans h)
    exact .setter hi
  | textureRectangle =>
    obtain ⟨-, -, -, ⟨a, -, rfl⟩ | ⟨-, rfl⟩⟩ := execTextureRectangle_next h
    · exact .drawFault ..
    · exact .draw ..
  | loadTile =>
    obtain ⟨-, ⟨-, rfl⟩ | ⟨-, hfits, ⟨a, -, rfl⟩ | ⟨-, rfl⟩⟩⟩ := loadTexels_next h
    · exact .loadFault ..
    · exact .loadFault ..
    · exact .load _ _ _ _ _ hfits
  | fillRectangle =>
    obtain ⟨m, -, -, rfl⟩ | ⟨-, h⟩ | ⟨-, h⟩ := execFillRectangle_next h
    · exact .fillFault ..
    · obtain ⟨-, rfl⟩ | ⟨-, -, -, -, -, -, h⟩ := checkedFill_next h
      · exact .fillFault ..
      · obtain ⟨a, -, rfl⟩ | ⟨-, rfl⟩ := flatFill_next h
        · exact .fillFault ..
        · exact .flatFill ..
    · obtain ⟨-, rfl⟩ | ⟨-, -, -, -, -, -, h⟩ := checkedFill_next h
      · exact .fillFault ..
      · obtain ⟨a, -, rfl⟩ | ⟨-, rfl⟩ := pipelineFill_next h
        · exact .fillFault ..
        · exact .pipelineFill ..

/-! ### Tiles (R36) -/

theorem tile_setTileRect_format (s : State) (i j : BitVec 3) (r : TileRect) :
    ((s.setTileRect i r).tile j).format = (s.tile j).format := by
  by_cases h : j = i
  · subst h; simp
  · rw [tile_setTileRect_ne s r h]

theorem tile_setTileFormat_rect (s : State) (i j : BitVec 3) (f : TileFormat) :
    ((s.setTileFormat i f).tile j).rect = (s.tile j).rect := by
  by_cases h : j = i
  · subst h; simp
  · rw [tile_setTileFormat_ne s f h]

/-- A setter writes no rectangle. -/
theorem tile_writeSlot_rect (i : Instr) (s : State) (j : BitVec 3) :
    ((writeSlot i s).tile j).rect = (s.tile j).rect := by
  cases i
  case setTile => exact tile_setTileFormat_rect ..
  all_goals rfl

/-- Set Tile alone writes format fields. -/
theorem Effect.tile_format {i : Instr} {s t : State} (h : Effect s i t)
    (hi : ∀ a b c d e f g h k l m n p q, i ≠ .setTile a b c d e f g h k l m n p q) (j : BitVec 3) :
    (t.tile j).format = (s.tile j).format := by
  cases h with
  | setter =>
    cases i
    case setTile => exact (hi _ _ _ _ _ _ _ _ _ _ _ _ _ _ rfl).elim
    all_goals rfl
  | loadFault => exact tile_setTileRect_format ..
  | load => exact tile_setTileRect_format ..
  | drawFault => rfl
  | draw => rfl
  | fillFault => rfl
  | flatFill => rfl
  | pipelineFill => rfl

/-- Load Tile alone writes a rectangle. -/
theorem Effect.tile_rect {i : Instr} {s t : State} (h : Effect s i t) (hi : ∀ a b c d e, i ≠ .loadTile a b c d e)
    (j : BitVec 3) : (t.tile j).rect = (s.tile j).rect := by
  cases h with
  | setter => exact tile_writeSlot_rect ..
  | loadFault => exact (hi _ _ _ _ _ rfl).elim
  | load => exact (hi _ _ _ _ _ rfl).elim
  | drawFault => rfl
  | draw => rfl
  | fillFault => rfl
  | flatFill => rfl
  | pipelineFill => rfl

/-- Load Tile leaves the tiles as the store of its rectangle does, whether it faults or copies. -/
theorem Effect.tile_loadTile {s0 t0 s1 t1 : BitVec 12} {i : BitVec 3} {s t : State}
    (h : Effect s (.loadTile s0 t0 i s1 t1) t) (j : BitVec 3) :
    t.tile j = (s.setTileRect i (loadRect s0 t0 s1 t1)).tile j := by
  cases h with
  | setter hs => exact absurd rfl hs
  | loadFault => rfl
  | load => rfl

/-- Settles O25: the discipline is read off the ways a command completes, and Set Tile's fields off its handler. -/
theorem tileWriteDiscipline : Obligations.TileWriteDiscipline := by
  unfold Obligations.TileWriteDiscipline
  intro i s t h
  refine ⟨(exec_effect h).tile_format, (exec_effect h).tile_rect, ?_, ?_⟩
  · rintro fmt size line tmem e palette clampT mirrorT maskT shiftT clampS mirrorS maskS shiftS rfl
    obtain ⟨t', ht', -, hne, -, hfields⟩ := setTileReplacesFormatFields.1 fmt size line tmem e palette clampT mirrorT
      maskT shiftT clampS mirrorS maskS shiftS s
    obtain rfl := Host.Outcome.next.inj (ht'.symm.trans h)
    exact ⟨hne, hfields⟩
  · rintro s0 t0 e s1 t1 rfl
    have ht := (exec_effect h).tile_loadTile
    refine ⟨fun j hj => (ht j).trans (tile_setTileRect_ne s _ hj), ?_⟩
    rw [ht e, tile_setTileRect_same]
    simp only [loadRect, toNat_coord, true_and]
    omega

/-! ### The write-set table (R43) -/

/-- Settles O47: each way a command completes writes the fields its row names and no other. -/
theorem writeSets : Obligations.WriteSets := by
  unfold Obligations.WriteSets
  intro i s t h
  obtain ⟨hbuf, hlen, hin, hparams⟩ := exec_keeps h
  cases exec_effect h with
  | setter => cases i <;> simp [writeSlot, Instr.opcode]
  | loadFault => simp [Instr.opcode]
  | load => simp [Instr.opcode]
  | drawFault => simp [Instr.opcode]
  | draw => simp [Instr.opcode]
  | fillFault => simp [Instr.opcode]
  | flatFill => simp [Instr.opcode]
  | pipelineFill => simp [Instr.opcode]

end Sys2Proof.Machine
end

section
/-! SUPPORT. The assembler's length (spec/40_assembler_dispatch.md R145, R148), and what a step raises and refuses
(spec/60_exceptions.md R266 to R269): O11, O40 to O42. -/

namespace Sys2Proof.Machine

/-! ### The assembler -/

/-- Everything `submit` does when it answers a next state: wait, drop an unknown opcode, or run the decoded command. -/
theorem submit_cases {w : Word} {s t : State} (h : submit w s = .next t) :
    ∃ hl : s.cmdlen < 16,
      ((s.append w hl).waits = true ∧ t = s.append w hl) ∨
      ((s.append w hl).waits = false ∧
        (t = { (s.append w hl).emit [.unknownOpcode (opcodeOf (s.append w hl).word0)] with cmdlen := 0 } ∨
          ∃ i u, i.opcode = opcodeOf (s.append w hl).word0 ∧ exec i (s.append w hl) = .next u ∧
            t = { u with cmdlen := 0 })) := by
  obtain ⟨hl, hw | ⟨hw, u, hd, rfl⟩⟩ := submit_next h
  · exact ⟨hl, .inl hw⟩
  · refine ⟨hl, .inr ⟨hw, ?_⟩⟩
    obtain ⟨i, hi, hu⟩ | rfl := dispatch_next hd
    · exact .inr ⟨i, u, (decodeWords_ok hi).2, hu, rfl⟩
    · exact .inl rfl

/-- At a boundary, or with a Texture Rectangle pending, a word waits exactly where it is a Texture Rectangle's first
(R145). -/
theorem waits_append_iff {w : Word} {s : State} (hl : s.cmdlen < 16) (hs : s.bufferLegal = true) :
    (s.append w hl).waits = true ↔ s.cmdlen = 0 ∧ opcodeOf w = 0x24#6 := by
  simp only [State.bufferLegal, Bool.or_eq_true, Bool.and_eq_true, beq_iff_eq] at hs
  rcases hs with h0 | ⟨h1, hop⟩
  · by_cases hop : opcodeOf w = 0x24#6 <;> simp [State.waits, append_word0 w hl h0, h0, words, hop]
  · have hw0 : (s.append w hl).word0 = s.word0 := append_word0_pending w hl (by omega)
    simp [waits_textureRectangle (hw0 ▸ hop), h1]

/-- Settles O11: a word that waits leaves the length 1, and every other one ends in completion. -/
theorem everyCompletedCommandClearsTheLength : Obligations.EveryCompletedCommandClearsTheLength := by
  unfold Obligations.EveryCompletedCommandClearsTheLength
  intro s t w hs h
  obtain ⟨hl, ⟨hw, rfl⟩ | ⟨hw, hc⟩⟩ := submit_cases h
  · have hfirst : s.cmdlen = 0 ∧ opcodeOf w = 0x24 := (waits_append_iff hl hs).mp hw
    rw [if_pos hfirst, append_cmdlen, hfirst.1]
  · have hrest : ¬ (s.cmdlen = 0 ∧ opcodeOf w = 0x24) := fun hf => by simp [(waits_append_iff hl hs).mpr hf] at hw
    rw [if_neg hrest]
    obtain rfl | ⟨i, u, -, -, rfl⟩ := hc <;> rfl

/-! ### Faults (R266, R269) -/

/-- The events of a setter hold no FAULT. -/
theorem fault_not_mem_setterEvents (p : Params) (i : Instr) (f : FaultReport) : .fault f ∉ setterEvents p i := by
  cases i
  case setTextureImage fmt _ _ _ | setColorImage fmt _ _ _ | setTile fmt _ _ _ _ _ _ _ _ _ _ _ _ _ =>
    exact fun h => (formatDiag_quiet fmt _ h).2.2 f rfl
  all_goals simp [setterEvents]

/-- A command that answers a next state either raises no fault, and leaves the latch, or does nothing beside its fault
but Load Tile's store of a rectangle. -/
theorem Effect.quiet_or_raised {i : Instr} {s t : State} (h : Effect s i t) :
    (t.outcome = s.outcome ∧ t.faultLatch = s.faultLatch ∧
        ∃ es, t.events = s.events ++ es ∧ ∀ f, Event.fault f ∉ es) ∨
      ∃ u f, t = u.raised f ∧ (u = s ∨ i.opcode = 0x34#6 ∧ ∃ e r, u = s.setTileRect e r) := by
  cases h with
  | setter =>
    refine .inl ⟨?_, ?_, setterEvents s.params i, by simp, fault_not_mem_setterEvents _ i⟩ <;> cases i <;> rfl
  | loadFault => exact .inr ⟨_, _, rfl, .inr ⟨rfl, _, _, rfl⟩⟩
  | load => exact .inl ⟨rfl, rfl, _, List.append_assoc .., by simp⟩
  | drawFault => exact .inr ⟨_, _, rfl, .inl rfl⟩
  | draw => exact .inl ⟨rfl, rfl, _, List.append_assoc .., by simp⟩
  | fillFault => exact .inr ⟨_, _, rfl, .inl rfl⟩
  | flatFill => exact .inl ⟨rfl, rfl, _, List.append_assoc .., by simp⟩
  | pipelineFill => exact .inl ⟨rfl, rfl, _, List.append_assoc .., by simp⟩

/-- The word that was dispatched stands in `cmdbuf[0]` after the step. -/
theorem exec_append_word0 {i : Instr} {w : Word} {s u : State} {hl : s.cmdlen < 16}
    (hop : i.opcode = opcodeOf (s.append w hl).word0) (hu : exec i (s.append w hl) = .next u) :
    opcodeOf u.cmdbuf[0] = i.opcode := by
  obtain ⟨hbuf, -⟩ := exec_keeps hu
  rw [hop, State.word0, hbuf]

/-- Settles O40: a dispatched command is quiet or raises its one fault, and waiting or an unknown opcode raises none. -/
theorem faultsArePrecise : Obligations.FaultsArePrecise := by
  unfold Obligations.FaultsArePrecise
  intro s t w h
  obtain ⟨hl, ⟨-, rfl⟩ | ⟨-, rfl | ⟨i, u, hop, hu, rfl⟩⟩⟩ := submit_cases h
  · exact ⟨nofun, fun _ => ⟨rfl, by simp⟩⟩
  · exact ⟨nofun, fun _ => ⟨rfl, by simp⟩⟩
  · obtain ⟨hout, hlatch, es, hes, hnone⟩ | ⟨v, f, rfl, hv⟩ := (exec_effect hu).quiet_or_raised
    · rw [append_outcome] at hout
      refine ⟨fun k hk => ?_, fun _ => ⟨hlatch, ?_⟩⟩
      · rw [hout] at hk; cases hk
      · rw [hes]; exact hnone
    · refine ⟨fun k hk => ?_, nofun⟩
      obtain rfl : f.kind = k := StepOutcome.fault.inj hk
      have hi := exec_append_word0 hop hu
      obtain rfl | ⟨h34, e, r, rfl⟩ := hv
      · exact ⟨⟨f, rfl, rfl⟩, rfl, fun _ => rfl, fun _ => rfl⟩
      · exact ⟨⟨f, rfl, rfl⟩, rfl, fun j => tile_setTileRect_format _ e j r, fun hne => absurd (hi.trans h34) hne⟩

/-- The latch after a fault holds its kind and what it held before. -/
theorem FaultLatch.has_insert (l : FaultLatch) (k k' : FaultKind) :
    (l.insert k).has k' = (l.has k' || decide (k' = k)) := by
  cases k <;> cases k' <;> simp [FaultLatch.insert, FaultLatch.has]

/-- Settles O41: a step's fault, and nothing else, inserts its kind in the latch. -/
theorem faultLatchIsSticky : Obligations.FaultLatchIsSticky := by
  unfold Obligations.FaultLatchIsSticky
  intro s t k h
  obtain ⟨-, rfl⟩ | ⟨w, rest, -, hw⟩ := step_next h
  · exact ⟨id, fun h1 h2 => by rw [h1] at h2; cases h2⟩
  · obtain ⟨hfault, hok⟩ := faultsArePrecise _ t w hw
    cases hout : t.outcome with
    | ok =>
      rw [(hok hout).1]
      exact ⟨id, fun h1 h2 => by rw [h1] at h2; cases h2⟩
    | fault k' =>
      have hlatch : t.faultLatch = s.faultLatch.insert k' := by rw [(hfault k' hout).2.1]
      rw [hlatch, FaultLatch.has_insert]
      exact ⟨fun h1 => by simp [h1], fun h1 h2 => by rw [h2, Bool.false_or, decide_eq_true_eq] at h1; rw [h1]⟩

/-! ### Refusals (R268) -/

/-- The outcome is no stop of the machine, and a refusal only for one of the reasons. -/
def stopsOnlyFor (rs : List Refusal) (o : Host.Outcome State Fault Refusal) : Prop :=
  match o with
  | .next _ => True
  | .fault _ => False
  | .refused r => r ∈ rs

theorem stopsOnlyFor_refused {rs : List Refusal} {o : Host.Outcome State Fault Refusal} {r : Refusal}
    (h : stopsOnlyFor rs o) (ho : o = .refused r) : r ∈ rs := by
  subst ho; exact h

theorem loadTexels_stops (i : BitVec 3) (r : TileRect) (s : State) :
    stopsOnlyFor [.invertedRect, .tmemRange] (loadTexels i r s) := by
  unfold loadTexels
  split
  · simp [stopsOnlyFor]
  · split
    · trivial
    · split
      · simp [stopsOnlyFor]
      · split <;> trivial

theorem execTextureRectangle_stops (x1 y1 : BitVec 12) (i : BitVec 3) (x0 y0 : BitVec 12)
    (sc tc dsdx dtdy : BitVec 16) (s : State) :
    stopsOnlyFor [.degenerateRect, .invertedRect, .tmemRange]
      (execTextureRectangle x1 y1 i x0 y0 sc tc dsdx dtdy s) := by
  unfold execTextureRectangle
  split
  · simp [stopsOnlyFor]
  · split
    · simp [stopsOnlyFor]
    · split
      · simp [stopsOnlyFor]
      · split <;> trivial

/-- The part modes Fill and One share, around a `fill` that never stops. -/
theorem checkedFill_stops (raw : RawRect) {fill : RawRect → State → Host.Outcome State Fault Refusal} (s : State)
    (hfill : ∀ r, stopsOnlyFor [] (fill r s)) :
    stopsOnlyFor [.invertedRect, .rescaleUnderflow, .fractionalRect, .outsideWorkArea] (checkedFill raw fill s) := by
  unfold checkedFill
  simp only
  split
  · trivial
  · split
    · simp [stopsOnlyFor]
    · split
      · simp [stopsOnlyFor]
      · split
        · simp [stopsOnlyFor]
        · split
          · simp [stopsOnlyFor]
          · have := hfill (rescale (bppConv s.fb.bpp) raw)
            cases hf : fill (rescale (bppConv s.fb.bpp) raw) s <;> simp_all [stopsOnlyFor]

theorem flatFill_stops (r : RawRect) (s : State) : stopsOnlyFor [] (flatFill r s) := by
  unfold flatFill
  split <;> trivial

theorem pipelineFill_stops (r : RawRect) (s : State) : stopsOnlyFor [] (pipelineFill r s) := by
  unfold pipelineFill
  split <;> trivial

theorem execFillRectangle_stops (x1 y1 x0 y0 : BitVec 12) (s : State) :
    stopsOnlyFor [.invertedRect, .rescaleUnderflow, .fractionalRect, .outsideWorkArea]
      (execFillRectangle x1 y1 x0 y0 s) := by
  unfold execFillRectangle
  split
  · trivial
  · trivial
  · exact checkedFill_stops _ s fun r => flatFill_stops r s
  · exact checkedFill_stops _ s fun r => pipelineFill_stops r s

/-- Settles O42: the three drawing commands stop for their own rows of R268, and a setter completes. -/
theorem onlyNamedRefusals : Obligations.OnlyNamedRefusals := by
  unfold Obligations.OnlyNamedRefusals
  refine ⟨fun i s r h => ?_, fun i s hi => ⟨_, exec_setter s hi⟩⟩
  cases i using setter_or_drawing with
  | setter i hi => rw [exec_setter s hi] at h; cases h
  | loadTile => exact .inl ⟨⟨_, _, _, _, _, rfl⟩, stopsOnlyFor_refused (loadTexels_stops ..) h⟩
  | textureRectangle =>
    exact .inr (.inl ⟨⟨_, _, _, _, _, _, _, _, _, rfl⟩, stopsOnlyFor_refused (execTextureRectangle_stops ..) h⟩)
  | fillRectangle => exact .inr (.inr ⟨⟨_, _, _, _, rfl⟩, stopsOnlyFor_refused (execFillRectangle_stops ..) h⟩)

end Sys2Proof.Machine
end

section
/-! SUPPORT. Views and requests of a step (spec/20_memory.md R72, R73), legal states as an invariant (spec/10_state.md
R50), and O43, O44, O45, O48. -/

namespace Sys2Proof.Machine

/-! ### Views and requests -/

/-- Events that are no transaction and no request show neither. -/
theorem quiet_events {t : State} (h : ∀ e ∈ t.events, e.memView = none ∧ e.isRaster = false) :
    t.memViews = [] ∧ ∀ e ∈ t.events, e.isRaster = false :=
  ⟨List.filterMap_eq_nil_iff.mpr fun e he => (h e he).1, fun e he => (h e he).2⟩

/-- Settles O48: a command's events are those of one way it completes, on a step that started without any. -/
theorem atMostOneViewEachWay : Obligations.AtMostOneViewEachWay := by
  unfold Obligations.AtMostOneViewEachWay
  intro s t w h
  obtain ⟨hl, ⟨-, rfl⟩ | ⟨-, rfl | ⟨i, u, hop, hu, rfl⟩⟩⟩ := submit_cases h
  · exact .inl (quiet_events (by simp))
  · exact .inl (quiet_events (by simp [Event.memView, Event.isRaster]))
  · have hi := exec_append_word0 hop hu
    obtain ⟨es, hes, hcases⟩ := exec_events hu
    rw [append_events, List.nil_append] at hes
    obtain ⟨-, hquiet⟩ | ⟨f, rfl, -⟩ | ⟨-, h34, r, hr, rfl⟩ | ⟨-, hdraw, r, hr, rfl⟩ := hcases
    · exact .inl (quiet_events fun e he => ⟨(hquiet e (hes ▸ he)).1, (hquiet e (hes ▸ he)).2.1⟩)
    · exact .inl (quiet_events (by simp [hes, Event.memView, Event.isRaster]))
    · exact .inr ⟨r, hr, .inl ⟨hes, hi.trans h34⟩⟩
    · exact .inr ⟨r, hr, .inr ⟨hes, hdraw.imp hi.trans hi.trans⟩⟩

/-! ### Legal registers and memories -/

/-- Legality but for the pending buffer (R31, R34, R35, R37). -/
structure State.StorageLegal (s : State) : Prop where
  fb     : s.fb.legal = true
  tex    : s.tex.legal = true
  tiles  : ∀ j, (s.tile j).format.legal = true
  sysMem : Memory.wf s.sysMem = true
  tmem   : Memory.wf s.tmem = true
  range  : tmemInRange s.tmem = true

/-- A property of all eight tiles, by list and by index. -/
theorem all_tiles_iff (s : State) (p : Tile → Bool) : s.tiles.toList.all p = true ↔ ∀ j, p (s.tile j) = true := by
  simp only [List.all_eq_true, Vector.mem_toList_iff, tile_eq]
  constructor
  · exact fun h j => h _ (Vector.getElem_mem _)
  · intro h t ht
    obtain ⟨k, hk, rfl⟩ := Vector.mem_iff_getElem.mp ht
    simpa [Nat.mod_eq_of_lt hk] using h (BitVec.ofNat 3 k)

theorem legal_iff (s : State) : s.legal = true ↔ s.StorageLegal ∧ s.bufferLegal = true := by
  simp only [State.legal, Bool.and_eq_true, all_tiles_iff]
  constructor
  · rintro ⟨⟨⟨⟨⟨⟨hfb, htex⟩, htiles⟩, hbuf⟩, hsys⟩, htmem⟩, hrange⟩
    exact ⟨⟨hfb, htex, htiles, hsys, htmem, hrange⟩, hbuf⟩
  · rintro ⟨⟨hfb, htex, htiles, hsys, htmem, hrange⟩, hbuf⟩
    exact ⟨⟨⟨⟨⟨⟨hfb, htex⟩, htiles⟩, hbuf⟩, hsys⟩, htmem⟩, hrange⟩

/-- Legality depends on the registers, tiles and memories alone. -/
theorem State.StorageLegal.congr {s t : State} (h : s.StorageLegal) (hfb : t.fb = s.fb) (htex : t.tex = s.tex)
    (htiles : t.tiles = s.tiles) (hsys : t.sysMem = s.sysMem) (htmem : t.tmem = s.tmem) : t.StorageLegal where
  fb     := hfb ▸ h.fb
  tex    := htex ▸ h.tex
  tiles  := fun j => tile_congr htiles j ▸ h.tiles j
  sysMem := hsys ▸ h.sysMem
  tmem   := htmem ▸ h.tmem
  range  := htmem ▸ h.range

/-- An image from the command's fields has a width of 1 to 1024 (R31). -/
theorem imageOf_legal (fmt : BitVec 3) (size : BitVec 2) (width : BitVec 10) (addr : BitVec 26) :
    (imageOf fmt size width addr).legal = true := by
  simp [ImageFormat.legal, imageOf]
  omega

theorem legalMask_maskOf (n : BitVec 4) : legalMask (maskOf n) = true := by
  simp only [legalMask, maskOf_eq, List.any_eq_true, List.mem_range, beq_iff_eq]
  exact ⟨n.toNat, n.isLt, rfl⟩

/-- Format fields from Set Tile's operands: 9-bit counts of 8 bytes, and masks of the form `2^n - 1` (R34, R35). -/
theorem tileFormatOf_legal (fmt : BitVec 3) (size : BitVec 2) (line tmem : BitVec 9) (palette : BitVec 4)
    (clampT mirrorT : BitVec 1) (maskT shiftT : BitVec 4) (clampS mirrorS : BitVec 1) (maskS shiftS : BitVec 4) :
    (tileFormatOf fmt size line tmem palette clampT mirrorT maskT shiftT clampS mirrorS maskS shiftS).legal = true := by
  dsimp only [TileFormat.legal, tileFormatOf]
  simp [legalMask_maskOf]
  omega

theorem setTileFormat_storageLegal {s : State} (h : s.StorageLegal) (i : BitVec 3) {f : TileFormat}
    (hf : f.legal = true) : (s.setTileFormat i f).StorageLegal where
  fb     := h.fb
  tex    := h.tex
  tiles  := fun j => by
    by_cases hj : j = i
    · rw [hj, tile_setTileFormat_same]; exact hf
    · rw [tile_setTileFormat_ne s f hj]; exact h.tiles j
  sysMem := h.sysMem
  tmem   := h.tmem
  range  := h.range

theorem setTileRect_storageLegal {s : State} (h : s.StorageLegal) (i : BitVec 3) (r : TileRect) :
    (s.setTileRect i r).StorageLegal where
  fb     := h.fb
  tex    := h.tex
  tiles  := fun j => by rw [tile_setTileRect_format]; exact h.tiles j
  sysMem := h.sysMem
  tmem   := h.tmem
  range  := h.range

/-- A setter stores legal registers in a legal state. -/
theorem writeSlot_storageLegal {s : State} (h : s.StorageLegal) (i : Instr) : (writeSlot i s).StorageLegal := by
  cases i
  case setTextureImage => exact { h with tex := imageOf_legal .. }
  case setColorImage => exact { h with fb := imageOf_legal .. }
  case setTile => exact setTileFormat_storageLegal h _ (tileFormatOf_legal ..)
  all_goals exact h.congr rfl rfl rfl rfl rfl

theorem emit_storageLegal {s : State} (h : s.StorageLegal) (es : List Event) : (s.emit es).StorageLegal :=
  h.congr rfl rfl rfl rfl rfl

theorem raised_storageLegal {s : State} (h : s.StorageLegal) (f : FaultReport) : (s.raised f).StorageLegal :=
  h.congr rfl rfl rfl rfl rfl

/-- A copy that fits stays inside tmem (R196(b)). -/
theorem tmemInRange_loadedTmem {s : State} {i : BitVec 3} {r : TileRect} (h : tmemInRange s.tmem = true)
    (hfits : loadFits s i r = true) : tmemInRange (loadedTmem s i r) = true := by
  refine tmemInRange_writeRows _ _ _ _ (fun j row hj => ?_) h
  obtain ⟨hlt, hlen⟩ := sourceRows_length _ _ _ _ _ _ _ _ hj
  have hrow : j * (loadDstView s i r).pitch ≤ (rectHeight r - 1) * (loadDstView s i r).pitch :=
    Nat.mul_le_mul_right _ (by omega)
  have hend := of_decide_eq_true hfits
  rw [hlen]
  calc (loadDstView s i r).base + j * (loadDstView s i r).pitch + loadCols s r * texelBytes (loadSrcView s r).bpp
      ≤ (loadDstView s i r).base + (rectHeight r - 1) * (loadDstView s i r).pitch +
          loadCols s r * texelBytes (loadSrcView s r).bpp := by omega
    _ ≤ tmemBytes := hend

/-- Every way a command completes keeps registers and memories legal. -/
theorem Effect.storageLegal {i : Instr} {s t : State} (he : Effect s i t) (h : s.StorageLegal) : t.StorageLegal := by
  cases he with
  | setter => exact emit_storageLegal (writeSlot_storageLegal h i) _
  | loadFault => exact raised_storageLegal (setTileRect_storageLegal h _ _) _
  | load s0 t0 e s1 t1 hfits =>
    have h := setTileRect_storageLegal h e (loadRect s0 t0 s1 t1)
    exact { h with tmem := wf_copyRect _ _ _ _ _ _ _ _ h.tmem, range := tmemInRange_loadedTmem h.range hfits }
  | drawFault => exact raised_storageLegal h _
  | draw => exact { h with sysMem := wf_overwriteView _ _ _ h.sysMem }
  | fillFault => exact raised_storageLegal h _
  | flatFill => exact { h with sysMem := wf_fillRect _ _ _ _ h.sysMem }
  | pipelineFill => exact { h with sysMem := wf_overwriteView _ _ _ h.sysMem }

/-! ### The invariant -/

theorem bufferLegal_of_boundary {s : State} (h : s.cmdlen = 0) : s.bufferLegal = true := by simp [State.bufferLegal, h]

/-- The buffer's legality depends on the buffer alone. -/
theorem bufferLegal_congr {s t : State} (h : s.bufferLegal = true) (hbuf : t.cmdbuf = s.cmdbuf)
    (hlen : t.cmdlen = s.cmdlen) : t.bufferLegal = true := by
  simpa [State.bufferLegal, State.word0, hbuf, hlen] using h

theorem bufferLegal_cmdlen {s : State} (h : s.bufferLegal = true) : s.cmdlen < 16 := by
  simp only [State.bufferLegal, Bool.or_eq_true, Bool.and_eq_true, beq_iff_eq] at h
  omega

/-- A word submitted to a legal state leaves a legal state. -/
theorem submit_legal {w : Word} {s t : State} (hst : s.StorageLegal) (hbuf : s.bufferLegal = true)
    (h : submit w s = .next t) : t.legal = true := by
  rw [legal_iff]
  obtain ⟨hl, ⟨hw, rfl⟩ | ⟨-, rfl | ⟨i, u, -, hu, rfl⟩⟩⟩ := submit_cases h
  · obtain ⟨h0, hop⟩ := (waits_append_iff hl hbuf).mp hw
    refine ⟨hst.congr rfl rfl rfl rfl rfl, ?_⟩
    simp [State.bufferLegal, append_word0 w hl h0, h0, hop]
  · exact ⟨hst.congr rfl rfl rfl rfl rfl, bufferLegal_of_boundary rfl⟩
  · have ha : (s.append w hl).StorageLegal := hst.congr rfl rfl rfl rfl rfl
    exact ⟨((exec_effect hu).storageLegal ha).congr rfl rfl rfl rfl rfl, bufferLegal_of_boundary rfl⟩

/-- Settles O44: legality holds of registers and memories through every effect, and of the buffer by its length. -/
theorem stepKeepsLegalStates : Obligations.StepKeepsLegalStates := by
  unfold Obligations.StepKeepsLegalStates
  intro s t hs h
  obtain ⟨-, rfl⟩ | ⟨w, rest, -, hw⟩ := step_next h
  · exact hs
  · obtain ⟨hst, hbuf⟩ := (legal_iff s).mp hs
    exact submit_legal (s := { s with cmdIn := rest }) (hst.congr rfl rfl rfl rfl rfl)
      (bufferLegal_congr hbuf rfl rfl) hw

/-! ### No stop of the machine's own -/

/-- No command stops the machine. -/
theorem exec_ne_fault (i : Instr) (s : State) (e : Fault) : exec i s ≠ .fault e := by
  have hstop {rs : List Refusal} {o : Host.Outcome State Fault Refusal} (h : stopsOnlyFor rs o) : o ≠ .fault e := by
    rintro rfl; exact h
  cases i using setter_or_drawing with
  | setter i hi => rw [exec_setter s hi]; nofun
  | loadTile => exact hstop (loadTexels_stops ..)
  | textureRectangle => exact hstop (execTextureRectangle_stops ..)
  | fillRectangle => exact hstop (execFillRectangle_stops ..)

theorem dispatch_ne_fault (s : State) (e : Fault) : dispatch s ≠ .fault e := by
  unfold dispatch
  split
  · exact exec_ne_fault _ s e
  · rename_i h; rw [decodeWords_error h]; nofun

theorem complete_ne_fault {o : Host.Outcome State Fault Refusal} {e : Fault} (h : o ≠ .fault e) :
    complete o ≠ .fault e := by
  cases o with
  | next => nofun
  | fault => exact h
  | refused => nofun

/-- While the buffer has room a word never stops the machine. -/
theorem submit_ne_fault {w : Word} {s : State} (hl : s.cmdlen < 16) (e : Fault) : submit w s ≠ .fault e := by
  unfold submit
  rw [dif_pos hl]
  split
  · nofun
  · exact complete_ne_fault (dispatch_ne_fault _ e)

/-- Settles O43: a legal buffer holds at most one word, so there is room for the next. -/
theorem legalStatesNeverStop : Obligations.LegalStatesNeverStop := by
  unfold Obligations.LegalStatesNeverStop
  intro s e hs
  obtain ⟨-, hbuf⟩ := (legal_iff s).mp hs
  unfold step
  split
  · nofun
  · rename_i w rest _
    exact submit_ne_fault (s := { s with cmdIn := rest }) (bufferLegal_cmdlen hbuf) e

/-- Settles O45: reset stores what the setters store from zero words, and empty memories. -/
theorem resetIsALegalResetState : Obligations.ResetIsALegalResetState := by
  unfold Obligations.ResetIsALegalResetState
  exact ⟨by decide, rfl, rfl, fun k => by cases k <;> rfl⟩

end Sys2Proof.Machine
end

section
/-! SUPPORT. The three drawing commands, an equation for each outcome in the order of spec/60_exceptions.md R265. -/

namespace Sys2Proof.Machine

/-! ### Load Tile (R190): `s` is the state in which the rectangle `r` is stored -/

section
variable {i : BitVec 3} {r : TileRect} {s : State}

theorem loadTexels_inverted (hinv : inverted r = true) : loadTexels i r s = .refused .invertedRect := by
  simp [loadTexels, hinv]

theorem loadTexels_unloadable (hinv : inverted r = false)
    (hload : loadable (s.tile i).format.bpp s.tex.bpp = false) :
    loadTexels i r s = .next (s.raised (.loadTileBpp i (s.tile i).format.bpp s.tex.bpp)) := by
  simp [loadTexels, raise, hinv, hload]

theorem loadTexels_tmemRange (hinv : inverted r = false)
    (hload : loadable (s.tile i).format.bpp s.tex.bpp = true) (hfits : loadFits s i r = false) :
    loadTexels i r s = .refused .tmemRange := by
  simp [loadTexels, hinv, hload, hfits]

theorem loadTexels_unresolved {a : Nat} (hinv : inverted r = false)
    (hload : loadable (s.tile i).format.bpp s.tex.bpp = true) (hfits : loadFits s i r = true)
    (hres : loadUnresolved s r = some a) : loadTexels i r s = .next (s.raised (.mem a)) := by
  simp [loadTexels, raise, hinv, hload, hfits, hres]

theorem loadTexels_done (hinv : inverted r = false) (hload : loadable (s.tile i).format.bpp s.tex.bpp = true)
    (hfits : loadFits s i r = true) (hres : loadUnresolved s r = none) :
    loadTexels i r s = .next (s.loadDone i r) := by
  simp [loadTexels, hinv, hload, hfits, hres]

end

/-! ### Texture Rectangle (R210) -/

section
variable {x1 y1 : BitVec 12} {i : BitVec 3} {x0 y0 : BitVec 12} {sc tc dsdx dtdy : BitVec 16} {s : State}

theorem execTextureRectangle_degenerate (hdeg : degenerate s x0 y0 x1 y1 = true) :
    execTextureRectangle x1 y1 i x0 y0 sc tc dsdx dtdy s = .refused .degenerateRect := by
  simp [execTextureRectangle, hdeg]

theorem execTextureRectangle_inverted (hdeg : degenerate s x0 y0 x1 y1 = false)
    (hinv : inverted (s.tile i).rect = true) :
    execTextureRectangle x1 y1 i x0 y0 sc tc dsdx dtdy s = .refused .invertedRect := by
  simp [execTextureRectangle, hdeg, hinv]

theorem execTextureRectangle_tmemRange (hdeg : degenerate s x0 y0 x1 y1 = false)
    (hinv : inverted (s.tile i).rect = false) (hfits : drawFits s i = false) :
    execTextureRectangle x1 y1 i x0 y0 sc tc dsdx dtdy s = .refused .tmemRange := by
  simp [execTextureRectangle, hdeg, hinv, hfits]

theorem execTextureRectangle_unresolved {a : Nat} (hdeg : degenerate s x0 y0 x1 y1 = false)
    (hinv : inverted (s.tile i).rect = false) (hfits : drawFits s i = true) (hres : drawUnresolved s = some a) :
    execTextureRectangle x1 y1 i x0 y0 sc tc dsdx dtdy s = .next (s.raised (.mem a)) := by
  simp [execTextureRectangle, raise, hdeg, hinv, hfits, hres]

theorem execTextureRectangle_done (hdeg : degenerate s x0 y0 x1 y1 = false)
    (hinv : inverted (s.tile i).rect = false) (hfits : drawFits s i = true) (hres : drawUnresolved s = none) :
    execTextureRectangle x1 y1 i x0 y0 sc tc dsdx dtdy s =
      .next (s.drawDone i (drawDstRect s x0 y0 x1 y1) ⟨texCoord sc, texCoord tc⟩ ⟨texCoord dsdx, texCoord dtdy⟩) := by
  simp [execTextureRectangle, hdeg, hinv, hfits, hres]

/-- At two states on which the four tests agree the outcomes are alike: the same refusal, a fault at the same address,
or a request at both. -/
theorem execTextureRectangle_alike {s' : State} (hdeg : degenerate s' x0 y0 x1 y1 = degenerate s x0 y0 x1 y1)
    (hinv : inverted (s'.tile i).rect = inverted (s.tile i).rect) (hfits : drawFits s' i = drawFits s i)
    (hres : drawUnresolved s' = drawUnresolved s) :
    (∃ r, execTextureRectangle x1 y1 i x0 y0 sc tc dsdx dtdy s' = .refused r ∧
        execTextureRectangle x1 y1 i x0 y0 sc tc dsdx dtdy s = .refused r) ∨
      (∃ a, execTextureRectangle x1 y1 i x0 y0 sc tc dsdx dtdy s' = .next (s'.raised (.mem a)) ∧
        execTextureRectangle x1 y1 i x0 y0 sc tc dsdx dtdy s = .next (s.raised (.mem a))) ∨
      (execTextureRectangle x1 y1 i x0 y0 sc tc dsdx dtdy s' =
          .next (s'.drawDone i (drawDstRect s' x0 y0 x1 y1) ⟨texCoord sc, texCoord tc⟩ ⟨texCoord dsdx, texCoord dtdy⟩) ∧
        execTextureRectangle x1 y1 i x0 y0 sc tc dsdx dtdy s =
          .next (s.drawDone i (drawDstRect s x0 y0 x1 y1) ⟨texCoord sc, texCoord tc⟩
            ⟨texCoord dsdx, texCoord dtdy⟩)) := by
  unfold execTextureRectangle
  rw [hdeg, hinv, hfits, hres]
  split
  · exact .inl ⟨_, rfl, rfl⟩
  · split
    · exact .inl ⟨_, rfl, rfl⟩
    · split
      · exact .inl ⟨_, rfl, rfl⟩
      · split
        · exact .inr (.inl ⟨_, rfl, rfl⟩)
        · exact .inr (.inr ⟨rfl, rfl⟩)

end

/-! ### Fill Rectangle (R230) -/

section
variable {raw : RawRect} {fill : RawRect → State → Host.Outcome State Fault Refusal} {s : State}

theorem checkedFill_unaligned (hal : aligned (bppConv s.fb.bpp) raw.x0 raw.x1 = false) :
    checkedFill raw fill s = .next (s.raised (.fillAlign raw.x0 raw.x1 (bppConv s.fb.bpp))) := by
  simp [checkedFill, raise, hal]

theorem checkedFill_inverted (hal : aligned (bppConv s.fb.bpp) raw.x0 raw.x1 = true)
    (hinv : raw.x1 < raw.x0 ∨ raw.y1 < raw.y0) : checkedFill raw fill s = .refused .invertedRect := by
  simp [checkedFill, hal, hinv]

theorem checkedFill_underflow (hal : aligned (bppConv s.fb.bpp) raw.x0 raw.x1 = true) (hx : raw.x0 ≤ raw.x1)
    (hy : raw.y0 ≤ raw.y1) (hun : underflows (bppConv s.fb.bpp) raw = true) :
    checkedFill raw fill s = .refused .rescaleUnderflow := by
  simp [checkedFill, hal, hx, hy, hun]

theorem checkedFill_fractional (hal : aligned (bppConv s.fb.bpp) raw.x0 raw.x1 = true) (hx : raw.x0 ≤ raw.x1)
    (hy : raw.y0 ≤ raw.y1) (hun : underflows (bppConv s.fb.bpp) raw = false)
    (hwhole : wholePixels (rescale (bppConv s.fb.bpp) raw) = false) :
    checkedFill raw fill s = .refused .fractionalRect := by
  simp [checkedFill, hal, hx, hy, hun, hwhole]

theorem checkedFill_outside (hal : aligned (bppConv s.fb.bpp) raw.x0 raw.x1 = true) (hx : raw.x0 ≤ raw.x1)
    (hy : raw.y0 ≤ raw.y1) (hun : underflows (bppConv s.fb.bpp) raw = false)
    (hwhole : wholePixels (rescale (bppConv s.fb.bpp) raw) = true)
    (hout : outsideWork (rescale (bppConv s.fb.bpp) raw) = true) :
    checkedFill raw fill s = .refused .outsideWorkArea := by
  simp [checkedFill, hal, hx, hy, hun, hwhole, hout]

theorem checkedFill_pass (hal : aligned (bppConv s.fb.bpp) raw.x0 raw.x1 = true) (hx : raw.x0 ≤ raw.x1)
    (hy : raw.y0 ≤ raw.y1) (hun : underflows (bppConv s.fb.bpp) raw = false)
    (hwhole : wholePixels (rescale (bppConv s.fb.bpp) raw) = true)
    (hout : outsideWork (rescale (bppConv s.fb.bpp) raw) = false) :
    checkedFill raw fill s = fill (rescale (bppConv s.fb.bpp) raw) s := by
  simp [checkedFill, hal, hx, hy, hun, hwhole, hout]

theorem flatFill_unresolved {r : RawRect} {a : Nat} (h : fillUnresolved s r = some a) :
    flatFill r s = .next (s.raised (.mem a)) := by
  simp [flatFill, raise, h]

theorem flatFill_done {r : RawRect} (h : fillUnresolved s r = none) : flatFill r s = .next (s.flatFillDone r) := by
  simp [flatFill, h]

theorem pipelineFill_unresolved {r : RawRect} {a : Nat} (h : pipelineUnresolved s = some a) :
    pipelineFill r s = .next (s.raised (.mem a)) := by
  simp [pipelineFill, raise, h]

theorem pipelineFill_done {r : RawRect} (h : pipelineUnresolved s = none) :
    pipelineFill r s = .next (s.pipelineFillDone r) := by
  simp [pipelineFill, h]

/-- Mode Fill is the checked flat fill (R231). -/
theorem exec_fillRectangle_fill {x1 y1 x0 y0 : BitVec 12} (h : s.cycleMode = .fill) :
    exec (.fillRectangle x1 y1 x0 y0) s = checkedFill (fillFields x1 y1 x0 y0) flatFill s := by
  simp [exec, execFillRectangle, h]

/-- Mode One is the checked fill through the pipeline (R231). -/
theorem exec_fillRectangle_one {x1 y1 x0 y0 : BitVec 12} (h : s.cycleMode = .one) :
    exec (.fillRectangle x1 y1 x0 y0) s = checkedFill (fillFields x1 y1 x0 y0) pipelineFill s := by
  simp [exec, execFillRectangle, h]

end

end Sys2Proof.Machine
end

section
/-! SUPPORT. State no rule reads (spec/10_state.md R44, R49), what Texture Rectangle does not read (R217), and what the
uninterpreted routines see (spec/20_memory.md R85): O32, O46, O49. -/

namespace Sys2Proof.Machine

/-! ### Texture Rectangle -/

/-- Settles O32: every test, the request and the drawn bytes are made of other fields, so that each outcome is the same
at the replaced state. -/
theorem textureRectangleReadsNoModeClipOrPipeline : Obligations.TextureRectangleReadsNoModeClipOrPipeline := by
  unfold Obligations.TextureRectangleReadsNoModeClipOrPipeline
  intro x1 y1 i x0 y0 sc tc dsdx dtdy s c m f x p
  simp only [exec]
  obtain ⟨r, h', h⟩ | ⟨a, h', h⟩ | ⟨h', h⟩ := execTextureRectangle_alike (x1 := x1) (y1 := y1) (i := i) (x0 := x0)
    (y0 := y0) (sc := sc) (tc := tc) (dsdx := dsdx) (dtdy := dtdy) (s := s)
    (s' := { s with clip := c, cycleMode := m, fillColor := f, tex := x, pp := p }) rfl rfl rfl rfl
  · rw [h', h]; rfl
  · rw [h', h]; rfl
  · rw [h', h]; rfl

/-! ### What the uninterpreted routines see -/

/-- Settles O49: the tests read no memory, and the drawn bytes are a function of the bytes of the views. -/
theorem drawnBytesDependOnViewsOnly : Obligations.DrawnBytesDependOnViewsOnly := by
  unfold Obligations.DrawnBytesDependOnViewsOnly
  rintro s s' t m n rfl
  refine ⟨fun x1 y1 i x0 y0 sc tc dsdx dtdy h hdst hsrc => ?_, fun x1 y1 x0 y0 hone h hview => ?_⟩
  · obtain ⟨hdeg, hinv, hfits, ⟨a, hres, rfl⟩ | ⟨hres, rfl⟩⟩ := execTextureRectangle_next h
    · exact ⟨_, execTextureRectangle_unresolved hdeg hinv hfits hres, rfl, hdst⟩
    · refine ⟨_, execTextureRectangle_done hdeg hinv hfits hres, rfl, ?_⟩
      rw [drawDone_sysMem, drawDone_sysMem, drawnMemory, drawnMemory, viewBytes_overwriteView]
      refine (viewBytes_overwriteView _ (drawDstView s) _).trans ?_
      rw [← hdst, ← hsrc]
      rfl
  · rw [exec_fillRectangle_one hone] at h
    have hone' := exec_fillRectangle_one (x1 := x1) (y1 := y1) (x0 := x0) (y0 := y0)
      (s := { s with sysMem := m, tmem := n }) hone
    obtain ⟨hal, rfl⟩ | ⟨hal, hx, hy, hun, hwhole, hout, h⟩ := checkedFill_next h
    · exact ⟨_, hone'.trans (checkedFill_unaligned hal), rfl, hview⟩
    · have hpass := hone'.trans (checkedFill_pass hal hx hy hun hwhole hout)
      obtain ⟨a, hres, rfl⟩ | ⟨hres, rfl⟩ := pipelineFill_next h
      · exact ⟨_, hpass.trans (pipelineFill_unresolved hres), rfl, hview⟩
      · refine ⟨_, hpass.trans (pipelineFill_done hres), rfl, ?_⟩
        rw [pipelineFillDone_sysMem, pipelineFillDone_sysMem, viewBytes_overwriteView]
        refine (viewBytes_overwriteView _ (pipelineView s) _).trans ?_
        rw [← hview]
        rfl

/-! ### The unread fields erased -/

@[simp] theorem eraseUnread_comp_eraseUnread : Tile.eraseUnread ∘ Tile.eraseUnread = Tile.eraseUnread := rfl

theorem eraseUnread_eraseUnread (s : State) : s.eraseUnread.eraseUnread = s.eraseUnread := by
  simp [State.eraseUnread]

@[simp] theorem tile_eraseUnread (s : State) (j : BitVec 3) : s.eraseUnread.tile j = (s.tile j).eraseUnread := by
  simp [tile_eq, State.eraseUnread]

theorem eraseUnread_emit (s : State) (es : List Event) : (s.emit es).eraseUnread = s.eraseUnread.emit es := rfl

theorem eraseUnread_setTileRect (s : State) (i : BitVec 3) (r : TileRect) :
    (s.setTileRect i r).eraseUnread = s.eraseUnread.setTileRect i r := by
  simp [State.eraseUnread, State.setTileRect, State.setTile, tile_eq, Tile.eraseUnread]

theorem eraseUnread_setTileFormat (s : State) (i : BitVec 3) (f : TileFormat) :
    (s.eraseUnread.setTileFormat i f).eraseUnread = (s.setTileFormat i f).eraseUnread := by
  simp [State.eraseUnread, State.setTileFormat, State.setTile, tile_eq, Tile.eraseUnread]

theorem eraseUnread_raised (s : State) (f : FaultReport) :
    (s.eraseUnread.raised f).eraseUnread = (s.raised f).eraseUnread := by
  simp [State.eraseUnread, State.raised, State.emit]

/-- A setter's writes depend on no unread field. -/
theorem eraseUnread_writeSlot (i : Instr) (s : State) :
    (writeSlot i s.eraseUnread).eraseUnread = (writeSlot i s).eraseUnread := by
  cases i
  case setTile => exact eraseUnread_setTileFormat ..
  all_goals simp [writeSlot, State.eraseUnread]

/-! ### No command reads an unread field: it answers alike at the erased state -/

/-- Two outcomes that differ at most in unread fields. -/
def sameButUnread (o o' : Host.Outcome State Fault Refusal) : Prop :=
  mapNext State.eraseUnread o = mapNext State.eraseUnread o'

theorem sameButUnread_next {s t : State} (h : s.eraseUnread = t.eraseUnread) :
    sameButUnread (.next s) (.next t) := congrArg Host.Outcome.next h

theorem loadDstView_eraseUnread (s : State) (i : BitVec 3) (r : TileRect) :
    loadDstView s.eraseUnread i r = loadDstView s i r := by
  simp only [loadDstView, tile_eraseUnread]
  rfl

theorem loadFits_eraseUnread (s : State) (i : BitVec 3) (r : TileRect) :
    loadFits s.eraseUnread i r = loadFits s i r := by
  simp only [loadFits, tile_eraseUnread]
  rfl

theorem loadDone_eraseUnread (s : State) (i : BitVec 3) (r : TileRect) :
    s.eraseUnread.loadDone i r = (s.loadDone i r).eraseUnread := by
  have htmem : loadedTmem s.eraseUnread i r = loadedTmem s i r := by
    rw [loadedTmem, loadDstView_eraseUnread]; rfl
  simp only [State.loadDone, htmem, loadDstView_eraseUnread]
  rfl

theorem loadTexels_eraseUnread (i : BitVec 3) (r : TileRect) (s : State) :
    sameButUnread (loadTexels i r s.eraseUnread) (loadTexels i r s) := by
  have htile : (s.eraseUnread.tile i).format.bpp = (s.tile i).format.bpp := by rw [tile_eraseUnread]; rfl
  cases hinv : inverted r with
  | true => rw [loadTexels_inverted hinv, loadTexels_inverted hinv]; rfl
  | false =>
    cases hload : loadable (s.tile i).format.bpp s.tex.bpp with
    | false =>
      rw [loadTexels_unloadable hinv hload, loadTexels_unloadable hinv (htile ▸ hload), htile]
      exact sameButUnread_next (eraseUnread_raised ..)
    | true =>
      have hload' : loadable (s.eraseUnread.tile i).format.bpp s.eraseUnread.tex.bpp = true := htile ▸ hload
      cases hfits : loadFits s i r with
      | false =>
        rw [loadTexels_tmemRange hinv hload hfits,
          loadTexels_tmemRange hinv hload' ((loadFits_eraseUnread s i r).trans hfits)]
        rfl
      | true =>
        have hfits' := (loadFits_eraseUnread s i r).trans hfits
        cases hres : loadUnresolved s r with
        | some a =>
          rw [loadTexels_unresolved hinv hload hfits hres, loadTexels_unresolved hinv hload' hfits' hres]
          exact sameButUnread_next (eraseUnread_raised ..)
        | none =>
          rw [loadTexels_done hinv hload hfits hres, loadTexels_done hinv hload' hfits' hres]
          rw [loadDone_eraseUnread]
          exact sameButUnread_next (eraseUnread_eraseUnread _)

theorem drawSrcView_eraseUnread (s : State) (i : BitVec 3) : drawSrcView s.eraseUnread i = drawSrcView s i := by
  simp only [drawSrcView, tile_eraseUnread]
  rfl

theorem drawDone_eraseUnread (s : State) (i : BitVec 3) (r : RawRect) (b d : CoordPair) :
    s.eraseUnread.drawDone i r b d = (s.drawDone i r b d).eraseUnread := by
  have hmem : drawnMemory s.eraseUnread i r b d = drawnMemory s i r b d := by
    rw [drawnMemory, drawSrcView_eraseUnread]; rfl
  simp only [State.drawDone, hmem, drawSrcView_eraseUnread]
  rfl

theorem execTextureRectangle_eraseUnread (x1 y1 : BitVec 12) (i : BitVec 3) (x0 y0 : BitVec 12)
    (sc tc dsdx dtdy : BitVec 16) (s : State) :
    sameButUnread (execTextureRectangle x1 y1 i x0 y0 sc tc dsdx dtdy s.eraseUnread)
      (execTextureRectangle x1 y1 i x0 y0 sc tc dsdx dtdy s) := by
  have hrect : (s.eraseUnread.tile i).rect = (s.tile i).rect := by rw [tile_eraseUnread]; rfl
  have hsrc : drawFits s.eraseUnread i = drawFits s i := by rw [drawFits, drawSrcView_eraseUnread]; rfl
  obtain ⟨r, h', h⟩ | ⟨a, h', h⟩ | ⟨h', h⟩ := execTextureRectangle_alike (x1 := x1) (y1 := y1) (x0 := x0) (y0 := y0)
    (sc := sc) (tc := tc) (dsdx := dsdx) (dtdy := dtdy) (s := s) (s' := s.eraseUnread) rfl (congrArg inverted hrect) hsrc rfl
  · rw [h', h]; rfl
  · rw [h', h]; exact sameButUnread_next (eraseUnread_raised ..)
  · rw [h', h, drawDone_eraseUnread]; exact sameButUnread_next (eraseUnread_eraseUnread _)

/-- The checked fill around a `fill` that reads no unread field. -/
theorem checkedFill_eraseUnread (raw : RawRect) {fill : RawRect → State → Host.Outcome State Fault Refusal} (s : State)
    (hfill : ∀ r, sameButUnread (fill r s.eraseUnread) (fill r s)) :
    sameButUnread (checkedFill raw fill s.eraseUnread) (checkedFill raw fill s) := by
  cases hal : aligned (bppConv s.fb.bpp) raw.x0 raw.x1 with
  | false =>
    rw [checkedFill_unaligned hal, checkedFill_unaligned (s := s.eraseUnread) hal]
    exact sameButUnread_next (eraseUnread_raised ..)
  | true =>
    have hal' : aligned (bppConv s.eraseUnread.fb.bpp) raw.x0 raw.x1 = true := hal
    by_cases hinv : raw.x1 < raw.x0 ∨ raw.y1 < raw.y0
    · rw [checkedFill_inverted hal hinv, checkedFill_inverted hal' hinv]; rfl
    obtain ⟨hx, hy⟩ : raw.x0 ≤ raw.x1 ∧ raw.y0 ≤ raw.y1 := by omega
    cases hun : underflows (bppConv s.fb.bpp) raw with
    | true => rw [checkedFill_underflow hal hx hy hun, checkedFill_underflow hal' hx hy hun]; rfl
    | false =>
      cases hwhole : wholePixels (rescale (bppConv s.fb.bpp) raw) with
      | false =>
        rw [checkedFill_fractional hal hx hy hun hwhole, checkedFill_fractional hal' hx hy hun hwhole]; rfl
      | true =>
        cases hout : outsideWork (rescale (bppConv s.fb.bpp) raw) with
        | true =>
          rw [checkedFill_outside hal hx hy hun hwhole hout, checkedFill_outside hal' hx hy hun hwhole hout]; rfl
        | false =>
          rw [checkedFill_pass hal hx hy hun hwhole hout, checkedFill_pass hal' hx hy hun hwhole hout]
          exact hfill _

theorem flatFill_eraseUnread (r : RawRect) (s : State) : sameButUnread (flatFill r s.eraseUnread) (flatFill r s) := by
  cases hres : fillUnresolved s r with
  | some a =>
    rw [flatFill_unresolved hres, flatFill_unresolved (s := s.eraseUnread) hres]
    exact sameButUnread_next (eraseUnread_raised ..)
  | none =>
    rw [flatFill_done hres, flatFill_done (s := s.eraseUnread) hres]
    exact sameButUnread_next (eraseUnread_eraseUnread (s.flatFillDone r))

theorem pipelineFill_eraseUnread (r : RawRect) (s : State) :
    sameButUnread (pipelineFill r s.eraseUnread) (pipelineFill r s) := by
  cases hres : pipelineUnresolved s with
  | some a =>
    rw [pipelineFill_unresolved hres, pipelineFill_unresolved (s := s.eraseUnread) hres]
    exact sameButUnread_next (eraseUnread_raised ..)
  | none =>
    rw [pipelineFill_done hres, pipelineFill_done (s := s.eraseUnread) hres]
    exact sameButUnread_next (eraseUnread_eraseUnread (s.pipelineFillDone r))

theorem execFillRectangle_eraseUnread (x1 y1 x0 y0 : BitVec 12) (s : State) :
    sameButUnread (execFillRectangle x1 y1 x0 y0 s.eraseUnread) (execFillRectangle x1 y1 x0 y0 s) := by
  have hmode : s.eraseUnread.cycleMode = s.cycleMode := rfl
  unfold execFillRectangle
  rw [hmode]
  split
  · exact sameButUnread_next (eraseUnread_raised ..)
  · exact sameButUnread_next (eraseUnread_raised ..)
  · exact checkedFill_eraseUnread _ s fun r => flatFill_eraseUnread r s
  · exact checkedFill_eraseUnread _ s fun r => pipelineFill_eraseUnread r s

theorem exec_eraseUnread (i : Instr) (s : State) : sameButUnread (exec i s.eraseUnread) (exec i s) := by
  cases i using setter_or_drawing with
  | setter i hi =>
    rw [exec_setter s hi, exec_setter s.eraseUnread hi]
    refine sameButUnread_next ?_
    rw [eraseUnread_emit, eraseUnread_emit, eraseUnread_writeSlot]
    rfl
  | loadTile s0 t0 e s1 t1 =>
    rw [exec, exec, execLoadTile, execLoadTile, ← eraseUnread_setTileRect]
    exact loadTexels_eraseUnread ..
  | textureRectangle => exact execTextureRectangle_eraseUnread ..
  | fillRectangle => exact execFillRectangle_eraseUnread ..

/-! ### The assembler reads no unread field -/

theorem dispatch_eraseUnread (s : State) : sameButUnread (dispatch s.eraseUnread) (dispatch s) := by
  have hwords : decodeWords s.eraseUnread.word0 s.eraseUnread.word1 = decodeWords s.word0 s.word1 := rfl
  unfold dispatch
  rw [hwords]
  cases hd : decodeWords s.word0 s.word1 with
  | ok i => exact exec_eraseUnread i s
  | error r =>
    obtain rfl := decodeWords_error hd
    exact sameButUnread_next (eraseUnread_eraseUnread (s.emit _))

/-- Completion clears the length before or after the erasure. -/
theorem sameButUnread_complete {o o' : Host.Outcome State Fault Refusal} (h : sameButUnread o o') :
    sameButUnread (complete o) (complete o') := by
  have hcomm (o : Host.Outcome State Fault Refusal) :
      mapNext State.eraseUnread (complete o) = complete (mapNext State.eraseUnread o) := by cases o <;> rfl
  rw [sameButUnread, hcomm, hcomm, h]

theorem submit_eraseUnread (w : Word) (s : State) : sameButUnread (submit w s.eraseUnread) (submit w s) := by
  by_cases hl : s.cmdlen < 16
  · have hl' : s.eraseUnread.cmdlen < 16 := hl
    have hwaits : (s.eraseUnread.append w hl').waits = (s.append w hl).waits := rfl
    rw [submit, submit, dif_pos hl, dif_pos hl', hwaits]
    split
    · exact sameButUnread_next (eraseUnread_eraseUnread (s.append w hl))
    · exact sameButUnread_complete (dispatch_eraseUnread (s.append w hl))
  · have hl' : ¬ s.eraseUnread.cmdlen < 16 := hl
    rw [submit, submit, dif_neg hl, dif_neg hl']
    rfl

theorem step_eraseUnread (s : State) : sameButUnread (step s.eraseUnread) (step s) := by
  have hin : s.eraseUnread.cmdIn = s.cmdIn := rfl
  unfold step
  rw [hin]
  split
  · exact sameButUnread_next (eraseUnread_eraseUnread s)
  · rename_i w rest _
    exact submit_eraseUnread w { s with cmdIn := rest }

/-- Settles O46: a step answers alike at a state and at its erased form, which the two states share. -/
theorem unreadStateNeverMatters : Obligations.UnreadStateNeverMatters := by
  unfold Obligations.UnreadStateNeverMatters
  intro s s' h
  calc mapNext State.eraseUnread (step s)
      = mapNext State.eraseUnread (step s.eraseUnread) := (step_eraseUnread s).symm
    _ = mapNext State.eraseUnread (step s'.eraseUnread) := by rw [h]
    _ = mapNext State.eraseUnread (step s') := step_eraseUnread s'

end Sys2Proof.Machine
end

section
/-! SUPPORT. Load Tile in its operands' own numbers (spec/42_load_tile.md R190 to R198), and O26 to O29. -/

namespace Sys2Proof.Machine

/-! ### The lowest unresolved address, from what it is -/

theorem lowestUnresolved_eq_some {map : List Region} {base pitch n rows a : Nat}
    (hmem : ∃ j < rows, ∃ k < n, a = base + j * pitch + k) (ha : resolves map a = false)
    (hleast : ∀ j < rows, ∀ k < n, resolves map (base + j * pitch + k) = false → a ≤ base + j * pitch + k) :
    lowestUnresolved map base pitch n rows = some a := by
  obtain ⟨j, hj, k, hk, rfl⟩ := hmem
  cases hl : lowestUnresolved map base pitch n rows with
  | none =>
    rw [lowestUnresolved_none.mp hl j hj k hk] at ha
    cases ha
  | some b =>
    obtain ⟨⟨j', hj', k', hk', rfl⟩, hb, hmin⟩ := lowestUnresolved_some hl
    exact congrArg some (Nat.le_antisymm (hmin j hj k hk ha) (hleast j' hj' k' hk' hb))

/-! ### Rectangles and formats -/

theorem inverted_eq_true_iff {r : TileRect} :
    inverted r = true ↔ r.s1.toNat < r.s0.toNat ∨ r.t1.toNat < r.t0.toNat := by
  simp [inverted]

theorem inverted_eq_false_iff {r : TileRect} :
    inverted r = false ↔ r.s0.toNat ≤ r.s1.toNat ∧ r.t0.toNat ≤ r.t1.toNat := by
  simp [inverted]

theorem rectWidth_eq (r : TileRect) : rectWidth r = (r.s1.toNat - r.s0.toNat) / 4 + 1 := rfl

theorem rectHeight_eq (r : TileRect) : rectHeight r = (r.t1.toNat - r.t0.toNat) / 4 + 1 := rfl

theorem loadable_eq_true_iff {a b : Bpp} : loadable a b = true ↔ a = b ∧ (b = .b8 ∨ b = .b16) := by
  simp [loadable]

theorem loadable_eq_false_iff {a b : Bpp} : loadable a b = false ↔ a ≠ b ∨ b = .b4 ∨ b = .b32 := by
  cases a <;> cases b <;> decide

/-- A texel of 8 or 16 bits has 1 or 2 whole bytes (R190). -/
theorem texelBytes_of_loadable {b : Bpp} {B : Nat} (h : b = .b8 ∧ B = 1 ∨ b = .b16 ∧ B = 2) :
    texelBytes b = B ∧ bppBits b = 8 * B ∧ (b = .b8 ∨ b = .b16) := by
  obtain ⟨rfl, rfl⟩ | ⟨rfl, rfl⟩ := h <;> decide

/-! ### The operands of the copy do not depend on the rectangle stored -/

theorem loadFits_setTileRect (s : State) (i : BitVec 3) (q r : TileRect) :
    loadFits (s.setTileRect i q) i r = loadFits s i r := by
  simp only [loadFits, tile_setTileRect_format]
  rfl

theorem loadDstView_setTileRect (s : State) (i : BitVec 3) (q r : TileRect) :
    loadDstView (s.setTileRect i q) i r = loadDstView s i r := by
  simp only [loadDstView, tile_setTileRect_format]
  rfl

/-- The state after the copy, as the store of the rectangle with tmem and two events changed (R191, R195). -/
theorem loadDone_setTileRect (s : State) (i : BitVec 3) (r : TileRect) :
    (s.setTileRect i r).loadDone i r =
      { s.setTileRect i r with
        tmem := loadedTmem s i r
        events := s.events ++ [.mem (.read s.tex.dramAddr.toNat),
          .copyRect (loadDstView s i r) (loadCols s r) (rectHeight r) (loadSrcView s r) r] } := by
  have htmem : loadedTmem (s.setTileRect i r) i r = loadedTmem s i r := by
    rw [loadedTmem, loadDstView_setTileRect]; rfl
  simp only [State.loadDone, htmem, loadDstView_setTileRect, State.obtain, State.emit, List.append_assoc]
  rfl

/-! ### The handler on the state before the store, an equation for each outcome -/

section
variable {s0 t0 : BitVec 12} {i : BitVec 3} {s1 t1 : BitVec 12} {s : State}

theorem exec_loadTile :
    exec (.loadTile s0 t0 i s1 t1) s =
      loadTexels i (loadRect s0 t0 s1 t1) (s.setTileRect i (loadRect s0 t0 s1 t1)) := rfl

theorem exec_loadTile_inverted (hinv : inverted (loadRect s0 t0 s1 t1) = true) :
    exec (.loadTile s0 t0 i s1 t1) s = .refused .invertedRect := loadTexels_inverted hinv

theorem loadable_setTileRect (hload : loadable (s.tile i).format.bpp s.tex.bpp = true) (r : TileRect) :
    loadable ((s.setTileRect i r).tile i).format.bpp (s.setTileRect i r).tex.bpp = true := by
  rwa [tile_setTileRect_same]

variable (hinv : inverted (loadRect s0 t0 s1 t1) = false)
include hinv

theorem exec_loadTile_unloadable (hload : loadable (s.tile i).format.bpp s.tex.bpp = false) :
    exec (.loadTile s0 t0 i s1 t1) s =
      .next ((s.setTileRect i (loadRect s0 t0 s1 t1)).raised (.loadTileBpp i (s.tile i).format.bpp s.tex.bpp)) := by
  rw [exec_loadTile, loadTexels_unloadable hinv, tile_setTileRect_same]
  · rfl
  · rwa [tile_setTileRect_same]

variable (hload : loadable (s.tile i).format.bpp s.tex.bpp = true)
include hload

theorem exec_loadTile_tmemRange (hfits : loadFits s i (loadRect s0 t0 s1 t1) = false) :
    exec (.loadTile s0 t0 i s1 t1) s = .refused .tmemRange :=
  loadTexels_tmemRange hinv (loadable_setTileRect hload _) ((loadFits_setTileRect ..).trans hfits)

theorem exec_loadTile_unresolved {a : Nat} (hfits : loadFits s i (loadRect s0 t0 s1 t1) = true)
    (hres : loadUnresolved s (loadRect s0 t0 s1 t1) = some a) :
    exec (.loadTile s0 t0 i s1 t1) s = .next ((s.setTileRect i (loadRect s0 t0 s1 t1)).raised (.mem a)) :=
  loadTexels_unresolved hinv (loadable_setTileRect hload _) ((loadFits_setTileRect ..).trans hfits) hres

theorem exec_loadTile_done (hfits : loadFits s i (loadRect s0 t0 s1 t1) = true)
    (hres : loadUnresolved s (loadRect s0 t0 s1 t1) = none) :
    exec (.loadTile s0 t0 i s1 t1) s =
      .next ((s.setTileRect i (loadRect s0 t0 s1 t1)).loadDone i (loadRect s0 t0 s1 t1)) :=
  loadTexels_done hinv (loadable_setTileRect hload _) ((loadFits_setTileRect ..).trans hfits) hres

end

/-- The command's rectangle is inverted where its fields are. -/
theorem inverted_loadRect_eq_true {s0 t0 s1 t1 : BitVec 12} (h : s1.toNat < s0.toNat ∨ t1.toNat < t0.toNat) :
    inverted (loadRect s0 t0 s1 t1) = true := by
  simpa [inverted_eq_true_iff, loadRect] using h

theorem inverted_loadRect_eq_false {s0 t0 s1 t1 : BitVec 12} (hs : s0.toNat ≤ s1.toNat) (ht : t0.toNat ≤ t1.toNat) :
    inverted (loadRect s0 t0 s1 t1) = false := by
  simp [inverted_eq_false_iff, loadRect, hs, ht]

/-! ### The format check -/

/-- Settles O26: the check is the negation of `loadable`, and a copy past it faults on memory alone. -/
theorem loadTileFaultsOnItsFormatCheck : Obligations.LoadTileFaultsOnItsFormatCheck := by
  unfold Obligations.LoadTileFaultsOnItsFormatCheck
  intro s0 t0 s1 t1 i s hs ht
  have hinv := inverted_loadRect_eq_false hs ht
  refine ⟨fun h => ⟨_, exec_loadTile_unloadable hinv (loadable_eq_false_iff.mpr h), rfl, rfl, rfl, ?_⟩,
    fun heq hbpp t h => ?_⟩
  · rw [memViews_raised, memViews_setTileRect]
  · have hload := loadable_setTileRect (loadable_eq_true_iff.mpr ⟨heq, hbpp⟩) (loadRect s0 t0 s1 t1)
    obtain ⟨-, ⟨hno, -⟩ | ⟨-, -, ⟨a, -, rfl⟩ | ⟨-, rfl⟩⟩⟩ := loadTexels_next h
    · rw [hload] at hno; cases hno
    · exact ⟨rfl, _, rfl, by simp⟩
    · exact ⟨rfl, _, List.append_assoc .., by simp⟩

/-! ### Where the copy reads and writes, in numbers -/

theorem loadFits_eq_true_iff {s : State} {i : BitVec 3} {r : TileRect} :
    loadFits s i r = true ↔ (s.tile i).format.tmemAddr + (rectHeight r - 1) * (s.tile i).format.pitch +
      loadCols s r * texelBytes s.tex.bpp ≤ 4096 := decide_eq_true_iff

theorem loadFits_eq_false_iff {s : State} {i : BitVec 3} {r : TileRect} :
    loadFits s i r = false ↔ 4096 < (s.tile i).format.tmemAddr + (rectHeight r - 1) * (s.tile i).format.pitch +
      loadCols s r * texelBytes s.tex.bpp := by
  rw [← Bool.not_eq_true, loadFits_eq_true_iff, Nat.not_le]

theorem rectWidth_loadRect (s0 t0 s1 t1 : BitVec 12) :
    rectWidth (loadRect s0 t0 s1 t1) = (s1.toNat - s0.toNat) / 4 + 1 := by
  simp [rectWidth_eq, loadRect]

theorem rectHeight_loadRect (s0 t0 s1 t1 : BitVec 12) :
    rectHeight (loadRect s0 t0 s1 t1) = (t1.toNat - t0.toNat) / 4 + 1 := by
  simp [rectHeight_eq, loadRect]

/-- The source origin (R194). -/
theorem loadOrigin_loadRect {s : State} {s0 t0 s1 t1 : BitVec 12} {S0 T0 : Nat}
    (h : s.params.loadTileSrcOrigin = .rectOrigin ∧ S0 = s0.toNat / 4 ∧ T0 = t0.toNat / 4 ∨
      s.params.loadTileSrcOrigin = .zero ∧ S0 = 0 ∧ T0 = 0) :
    loadOrigin s (loadRect s0 t0 s1 t1) = (S0, T0) := by
  obtain ⟨ho, rfl, rfl⟩ | ⟨ho, rfl, rfl⟩ := h <;> simp [loadOrigin, ho, loadRect, floorQ2, oneQ2]

/-- The source rows are a pitch apart (R195). -/
theorem loadSource_add (s : State) (r : TileRect) (j : Nat) :
    loadSource s r 0 + j * pitchOf s.tex = loadSource s r j := by
  simp only [loadSource, Nat.add_mul, Nat.zero_mul]
  omega

theorem loadUnresolved_eq_none_iff {s : State} {r : TileRect} :
    loadUnresolved s r = none ↔
      ∀ j < rectHeight r, ∀ k < loadRowBytes s r, resolves s.params.memMap (loadSource s r j + k) = true := by
  simp only [loadUnresolved, lowestUnresolved_none, loadSource_add]

theorem loadUnresolved_eq_some {s : State} {r : TileRect} {a : Nat}
    (hmem : ∃ j < rectHeight r, ∃ k < loadRowBytes s r, a = loadSource s r j + k)
    (ha : resolves s.params.memMap a = false)
    (hleast : ∀ j < rectHeight r, ∀ k < loadRowBytes s r,
      resolves s.params.memMap (loadSource s r j + k) = false → a ≤ loadSource s r j + k) :
    loadUnresolved s r = some a := by
  refine lowestUnresolved_eq_some ?_ ha ?_
  · simpa only [loadSource_add] using hmem
  · simpa only [loadSource_add] using hleast

/-- The first byte of a source row, in the statements' numbers (R195). -/
theorem loadSource_loadRect {s : State} {s0 t0 s1 t1 : BitVec 12} {B S0 T0 P : Nat}
    (hbits : bppBits s.tex.bpp = 8 * B) (hbytes : texelBytes s.tex.bpp = B)
    (horigin : loadOrigin s (loadRect s0 t0 s1 t1) = (S0, T0)) (hP : P = s.tex.width * (8 * B) / 8) (j : Nat) :
    loadSource s (loadRect s0 t0 s1 t1) j = s.tex.dramAddr.toNat + (T0 + j) * P + S0 * B := by
  rw [loadSource, horigin, pitchOf, hbits, hbytes, hP]

/-- Settles O28: the two refusals are the two tests, the first before the format check and the second after it. -/
theorem loadTileRefusals : Obligations.LoadTileRefusals := by
  unfold Obligations.LoadTileRefusals
  intro s0 t0 s1 t1 i s
  refine ⟨fun h => exec_loadTile_inverted (inverted_loadRect_eq_true h), fun B hs ht heq hB hpast => ?_⟩
  obtain ⟨hbytes, -, hbpp⟩ := texelBytes_of_loadable hB
  refine exec_loadTile_tmemRange (inverted_loadRect_eq_false hs ht) (loadable_eq_true_iff.mpr ⟨heq, hbpp⟩)
    (loadFits_eq_false_iff.mpr ?_)
  rwa [loadCols, rectWidth_loadRect, rectHeight_loadRect, hbytes, Nat.add_sub_cancel]

/-- Settles O29: the address of the fault is the lowest unresolved address of the source rows. -/
theorem loadTileUnresolvedSourceFaults : Obligations.LoadTileUnresolvedSourceFaults := by
  unfold Obligations.LoadTileUnresolvedSourceFaults
  intro s0 t0 s1 t1 i s B cw S0 T0 P a addr hs ht heq hB hcw horigin hP hfits haddr hmem ha hleast
  obtain ⟨hbytes, hbits, hbpp⟩ := texelBytes_of_loadable hB
  have hcols : loadCols s (loadRect s0 t0 s1 t1) = cw := by rw [loadCols, rectWidth_loadRect, hcw]
  have hsource (j k : Nat) : loadSource s (loadRect s0 t0 s1 t1) j + k = addr j k := by
    rw [haddr, loadSource_loadRect hbits hbytes (loadOrigin_loadRect horigin) hP]
  refine exec_loadTile_unresolved (inverted_loadRect_eq_false hs ht) (loadable_eq_true_iff.mpr ⟨heq, hbpp⟩)
    (loadFits_eq_true_iff.mpr ?_) (loadUnresolved_eq_some ?_ ha ?_)
  · rwa [hcols, rectHeight_loadRect, hbytes, Nat.add_sub_cancel]
  · simpa only [loadRowBytes, hcols, hbytes, rectHeight_loadRect, hsource, Nat.lt_succ_iff] using hmem
  · simpa only [loadRowBytes, hcols, hbytes, rectHeight_loadRect, hsource, Nat.lt_succ_iff] using hleast

/-- Settles O27: past the tests the copy is `copy_rect` on the statement's views, whose rows hold the source bytes. -/
theorem loadTileCopiesTexels : Obligations.LoadTileCopiesTexels := by
  unfold Obligations.LoadTileCopiesTexels
  intro s0 t0 s1 t1 i s B width height cw S0 T0 P p d hs ht heq hB hwidth hheight hcw horigin hP hp hd hfits hres
  obtain ⟨hbytes, hbits, hbpp⟩ := texelBytes_of_loadable hB
  have hw : rectWidth (loadRect s0 t0 s1 t1) = width := by rw [rectWidth_loadRect, hwidth]
  have hh : rectHeight (loadRect s0 t0 s1 t1) = height := by rw [rectHeight_loadRect, hheight]
  have hcols : loadCols s (loadRect s0 t0 s1 t1) = cw := by rw [loadCols, hw, hcw]
  have ho := loadOrigin_loadRect (s1 := s1) (t1 := t1) horigin
  have hdone := exec_loadTile_done (inverted_loadRect_eq_false hs ht) (loadable_eq_true_iff.mpr ⟨heq, hbpp⟩)
    (loadFits_eq_true_iff.mpr (by rwa [hh, hcols, hbytes, ← hd, ← hp]))
    (loadUnresolved_eq_none_iff.mpr
      (by simpa only [loadRowBytes, hcols, hbytes, hh, loadSource_loadRect hbits hbytes ho hP] using hres))
  have hdst : loadDstView s i (loadRect s0 t0 s1 t1) =
      ⟨.tmem, d, width, height, p, (s.tile i).format.colorFormat, s.tex.bpp, s.params.loadTileOrder⟩ := by
    rw [loadDstView, hw, hh, heq, ← hd, ← hp]
  have hsrc : loadSrcView s (loadRect s0 t0 s1 t1) =
      ⟨.sys, s.tex.dramAddr.toNat, cw, height, P, s.tex.colorFormat, s.tex.bpp, s.params.loadTileOrder⟩ := by
    rw [loadSrcView, hh, hcols, pitchOf, hbits, ← hP]
  rw [loadDone_setTileRect, loadedTmem, hdst, hsrc, hcols, hh, ho] at hdone
  refine ⟨_, hdone, rfl, fun j k hj hk hlast => ?_, fun a ha => ?_⟩
  · exact (readByte_copyRect_last _ _ _ _ cw height S0 T0 j k hj (by rwa [hbytes]) hlast).trans (by rw [hbytes])
  · exact readByte_copyRect_outside _ _ _ _ cw height S0 T0 a (by rwa [hbytes])

end Sys2Proof.Machine
end

section
/-! SUPPORT. The framebuffer view's footprint (spec/20_memory.md R85, R213) and Texture Rectangle in its operands' own
numbers (spec/43_texture_rectangle.md R210 to R216): O30, O31, O38. -/

namespace Sys2Proof.Machine

/-! ### Footprints over system memory -/

/-- A row of the 320-pixel view has whole bytes at every depth (R85(b), R213). -/
theorem footprintLen_fbView (fb : ImageFormat) (fmt : ColorFormat) (bpp : Bpp) (order : ByteOrder) :
    footprintLen (fbView fb fmt bpp order) = 239 * pitchOf fb + 320 * bppBits bpp / 8 := by
  have hrow : (320 * bppBits bpp + 7) / 8 = 320 * bppBits bpp / 8 := by cases bpp <;> rfl
  rw [← hrow]
  rfl

/-- A footprint is one row. -/
theorem lowestUnresolved_footprint_none {map : List Region} {base n : Nat} :
    lowestUnresolved map base 0 n 1 = none ↔ ∀ k < n, resolves map (base + k) = true := by
  simp [lowestUnresolved_none]

theorem lowestUnresolved_footprint_some {map : List Region} {base n a : Nat} (hlo : base ≤ a) (hhi : a < base + n)
    (ha : resolves map a = false) (hleast : ∀ k, base ≤ k → k < a → resolves map k = true) :
    lowestUnresolved map base 0 n 1 = some a := by
  refine lowestUnresolved_eq_some ⟨0, Nat.one_pos, a - base, by omega, by omega⟩ ha fun j _ k _ hk => ?_
  rw [Nat.mul_zero, Nat.add_zero] at hk ⊢
  refine Nat.le_of_not_lt fun hlt => ?_
  rw [hleast _ (Nat.le_add_right base k) hlt] at hk
  cases hk

/-! ### Texture Rectangle's tests and request, in numbers -/

theorem decRaw_eq {d : TexRectDec} {dec : Nat} (h : d = .ulp ∧ dec = 1 ∨ d = .one ∧ dec = 4) : decRaw d = dec := by
  obtain ⟨rfl, rfl⟩ | ⟨rfl, rfl⟩ := h <;> rfl

theorem degenerate_eq_true_iff {s : State} {x0 y0 x1 y1 : BitVec 12} :
    degenerate s x0 y0 x1 y1 = true ↔ x1.toNat < x0.toNat + decRaw s.params.texRectDec ∨
      y1.toNat < y0.toNat + decRaw s.params.texRectDec := by
  simp [degenerate]

theorem degenerate_eq_false_iff {s : State} {x0 y0 x1 y1 : BitVec 12} :
    degenerate s x0 y0 x1 y1 = false ↔ x0.toNat + decRaw s.params.texRectDec ≤ x1.toNat ∧
      y0.toNat + decRaw s.params.texRectDec ≤ y1.toNat := by
  simp [degenerate]

/-- The source view's bytes (R85(b), R214). -/
theorem footprintLen_drawSrcView (s : State) (i : BitVec 3) :
    footprintLen (drawSrcView s i) = (rectHeight (s.tile i).rect - 1) * (s.tile i).format.pitch +
      (rectWidth (s.tile i).rect * bppBits (s.tile i).format.bpp + 7) / 8 := rfl

theorem drawFits_eq_true_iff {s : State} {i : BitVec 3} :
    drawFits s i = true ↔ (s.tile i).format.tmemAddr + footprintLen (drawSrcView s i) ≤ 4096 := decide_eq_true_iff

theorem drawFits_eq_false_iff {s : State} {i : BitVec 3} :
    drawFits s i = false ↔ 4096 < (s.tile i).format.tmemAddr + footprintLen (drawSrcView s i) := by
  rw [← Bool.not_eq_true, drawFits_eq_true_iff, Nat.not_le]

/-- The source view's bytes, from the statements' rectangle. -/
theorem footprintLen_drawSrcView_rect (s : State) (i : BitVec 3) :
    footprintLen (drawSrcView s i) =
      ((s.tile i).rect.t1.toNat - (s.tile i).rect.t0.toNat) / 4 * (s.tile i).format.pitch +
        ((((s.tile i).rect.s1.toNat - (s.tile i).rect.s0.toNat) / 4 + 1) * bppBits (s.tile i).format.bpp + 7) / 8 := rfl

theorem footprintLen_drawDstView (s : State) :
    footprintLen (drawDstView s) =
      239 * (s.fb.width * bppBits s.fb.bpp / 8) + 320 * bppBits s.fb.bpp / 8 := footprintLen_fbView ..

/-- The state after the request, as the state before with system memory and two events changed (R210). -/
theorem drawDone_eq (s : State) (i : BitVec 3) (r : RawRect) (b d : CoordPair) :
    s.drawDone i r b d =
      { s with
        sysMem := drawnMemory s i r b d
        events := s.events ++ [.mem (.write s.fb.dramAddr.toNat),
          .drawRectWithSlopes (drawDstView s) r (drawSrcView s i) b d] } := by
  simp only [State.drawDone, State.obtain, State.emit, List.append_assoc]
  rfl

/-- Settles O31: the three refusals are the three tests, in order. -/
theorem textureRectangleRefusals : Obligations.TextureRectangleRefusals := by
  unfold Obligations.TextureRectangleRefusals
  intro x1 y1 i x0 y0 sc tc dsdx dtdy s dec hdec
  obtain rfl := decRaw_eq hdec
  refine ⟨fun h => execTextureRectangle_degenerate (degenerate_eq_true_iff.mpr h), fun hx hy hinv => ?_,
    fun hx hy hinv hpast => ?_⟩
  · exact execTextureRectangle_inverted (degenerate_eq_false_iff.mpr ⟨hx, hy⟩) (inverted_eq_true_iff.mpr hinv)
  · refine execTextureRectangle_tmemRange (degenerate_eq_false_iff.mpr ⟨hx, hy⟩)
      (inverted_eq_false_iff.mpr (by omega)) (drawFits_eq_false_iff.mpr ?_)
    rwa [footprintLen_drawSrcView_rect, ← Nat.add_assoc]

/-- Settles O38: the address of the fault is the lowest unresolved address of the destination footprint. -/
theorem textureRectangleUnresolvedFaults : Obligations.TextureRectangleUnresolvedFaults := by
  unfold Obligations.TextureRectangleUnresolvedFaults
  intro x1 y1 i x0 y0 sc tc dsdx dtdy s dec a dstLen hdec hx hy hs ht hfits hlen hlo hhi ha hleast
  obtain rfl := decRaw_eq hdec
  refine execTextureRectangle_unresolved (degenerate_eq_false_iff.mpr ⟨hx, hy⟩)
    (inverted_eq_false_iff.mpr ⟨hs, ht⟩) (drawFits_eq_true_iff.mpr ?_) ?_
  · rwa [footprintLen_drawSrcView_rect, ← Nat.add_assoc]
  · refine lowestUnresolved_footprint_some hlo ?_ ha hleast
    rwa [footprintLen_drawDstView, ← hlen]

/-- Settles O30: past the tests the request carries the statement's views, and only its footprint is overwritten. -/
theorem textureRectangleIssuesOneRequest : Obligations.TextureRectangleIssuesOneRequest := by
  unfold Obligations.TextureRectangleIssuesOneRequest
  intro x1 y1 i x0 y0 sc tc dsdx dtdy s dec sw sh srcLen P dstLen hdec hx hy hs ht hsw hsh hsrc hfits hP hdst hres
  obtain rfl := decRaw_eq hdec
  have hlen : footprintLen (drawDstView s) = dstLen := by rw [footprintLen_drawDstView, hdst, hP]
  have hdone := execTextureRectangle_done (sc := sc) (tc := tc) (dsdx := dsdx) (dtdy := dtdy)
    (degenerate_eq_false_iff.mpr ⟨hx, hy⟩) (inverted_eq_false_iff.mpr ⟨hs, ht⟩)
    (drawFits_eq_true_iff.mpr (by rwa [footprintLen_drawSrcView, rectWidth_eq, rectHeight_eq, ← hsw, ← hsh, ← hsrc]))
    (lowestUnresolved_footprint_none.mpr (by rwa [hlen]))
  rw [drawDone_eq] at hdone
  refine ⟨_, hdone, ?_, fun a ha => readByte_overwriteView_outside _ _ _ a (by rwa [hlen])⟩
  have hrect : drawDstRect s x0 y0 x1 y1 =
      ⟨x0.toNat, y0.toNat, x1.toNat - decRaw s.params.texRectDec, y1.toNat - decRaw s.params.texRectDec⟩ := by
    simp [drawDstRect]
  rw [hrect, hsw, hsh, hP]
  rfl

end Sys2Proof.Machine
end

section
/-! SUPPORT. Fill Rectangle in its operands' own numbers (spec/44_fill_rectangle.md R230 to R241): O33 to O37, O39. -/

namespace Sys2Proof.Machine

/-! ### The tests, in numbers -/

theorem fillFields_eq (x1 y1 x0 y0 : BitVec 12) :
    fillFields x1 y1 x0 y0 = ⟨x0.toNat, y0.toNat, x1.toNat, y1.toNat⟩ := by
  simp [fillFields]

theorem aligned_eq_true_iff {c x0 x1 : Nat} : aligned c x0 x1 = true ↔ x0 % c = 0 ∧ (x1 + 4) % c = 0 := by
  simp [aligned, oneQ2]

theorem underflows_eq_true_iff {c : Nat} {r : RawRect} : underflows c r = true ↔ (r.x1 + 4) / c < 4 :=
  decide_eq_true_iff

theorem underflows_eq_false_iff {c : Nat} {r : RawRect} : underflows c r = false ↔ 4 ≤ (r.x1 + 4) / c := by
  rw [← Bool.not_eq_true, underflows_eq_true_iff, Nat.not_lt]

/-- The rescaled rectangle, its right edge as the statements name it (R233). -/
theorem rescale_eq {c X : Nat} {r : RawRect} (h : X + 4 = (r.x1 + 4) / c) :
    rescale c r = ⟨r.x0 / c, r.y0, X, r.y1⟩ := by
  have hX : (r.x1 + oneQ2) / c - oneQ2 = X := Nat.sub_eq_of_eq_add h.symm
  rw [rescale, hX]

theorem wholePixels_eq_true_iff {r : RawRect} :
    wholePixels r = true ↔ r.x0 % 4 = 0 ∧ r.y0 % 4 = 0 ∧ r.x1 % 4 = 0 ∧ r.y1 % 4 = 0 := by
  simp [wholePixels, wholePixel, oneQ2, and_assoc]

theorem outsideWork_eq_true_iff {r : RawRect} : outsideWork r = true ↔ 320 ≤ r.x1 / 4 ∨ 240 ≤ r.y1 / 4 := by
  simp only [outsideWork, Bool.or_eq_true, decide_eq_true_eq]
  rfl

theorem outsideWork_eq_false_iff {r : RawRect} : outsideWork r = false ↔ r.x1 / 4 < 320 ∧ r.y1 / 4 < 240 := by
  rw [← Bool.not_eq_true, outsideWork_eq_true_iff, not_or, Nat.not_le, Nat.not_le]

/-- Modes Fill and One run the checked fill, each with its own request (R231). -/
theorem exec_fillRectangle_checked {x1 y1 x0 y0 : BitVec 12} {s : State}
    (h : s.cycleMode = .fill ∨ s.cycleMode = .one) :
    ∃ fill, exec (.fillRectangle x1 y1 x0 y0) s = checkedFill ⟨x0.toNat, y0.toNat, x1.toNat, y1.toNat⟩ fill s := by
  rw [← fillFields_eq]
  exact h.elim (fun h => ⟨_, exec_fillRectangle_fill h⟩) fun h => ⟨_, exec_fillRectangle_one h⟩

/-- With operands that pass every test the checked fill issues the request on the rescaled rectangle. -/
theorem checkedFill_of_operands {x1 y1 x0 y0 : BitVec 12} {s : State} {c X : Nat}
    (fill : RawRect → State → Host.Outcome State Fault Refusal) (hc : c = 32 / bppBits s.fb.bpp)
    (hx0 : x0.toNat % c = 0) (hx1 : (x1.toNat + 4) % c = 0) (hx : x0.toNat ≤ x1.toNat) (hy : y0.toNat ≤ y1.toNat)
    (hX : X + 4 = (x1.toNat + 4) / c) (wx0 : x0.toNat / c % 4 = 0) (wX : X % 4 = 0) (wy0 : y0.toNat % 4 = 0)
    (wy1 : y1.toNat % 4 = 0) (hright : X / 4 < 320) (hbottom : y1.toNat / 4 < 240) :
    checkedFill (fillFields x1 y1 x0 y0) fill s = fill ⟨x0.toNat / c, y0.toNat, X, y1.toNat⟩ s := by
  have hr := rescale_eq (r := ⟨x0.toNat, y0.toNat, x1.toNat, y1.toNat⟩) hX
  subst hc
  rw [fillFields_eq, checkedFill_pass (aligned_eq_true_iff.mpr ⟨hx0, hx1⟩) hx hy
    (underflows_eq_false_iff.mpr (hX ▸ Nat.le_add_left 4 X))]
  · exact congrArg (fill · s) hr
  · exact hr ▸ wholePixels_eq_true_iff.mpr ⟨wx0, wy0, wX, wy1⟩
  · exact hr ▸ outsideWork_eq_false_iff.mpr ⟨hright, hbottom⟩

/-! ### Faults and refusals before the request -/

/-- Settles O33: the mode is looked at first. -/
theorem fillRectangleInTwoOrCopyFaults : Obligations.FillRectangleInTwoOrCopyFaults := by
  unfold Obligations.FillRectangleInTwoOrCopyFaults
  intro x1 y1 x0 y0 s hmode
  rcases hmode with h | h
  · simp [exec, execFillRectangle, h, raise, State.raised, State.emit, FaultReport.kind, FaultLatch.insert]
  · simp [exec, execFillRectangle, h, raise, State.raised, State.emit, FaultReport.kind, FaultLatch.insert]

/-- A division is undone exactly where it leaves no remainder. -/
theorem div_mul_eq_iff_mod_eq_zero (n c : Nat) : n / c * c = n ↔ n % c = 0 := by
  have := Nat.div_add_mod' n c
  omega

/-- The rescaled x coordinates reconstruct exactly where the raw check passes (R233, R234). -/
theorem aligned_iff_reconstructs {x0 x1 c : Nat} {r0 r1 : Int} (h0 : r0 = (x0 / c : Nat))
    (h1 : r1 = ((x1 + 4) / c : Nat) - 4) :
    aligned c x0 x1 = true ↔ r0 * c = x0 ∧ (r1 + 4) * c - 4 = x1 := by
  have hx0 : r0 * c = ((x0 / c * c : Nat) : Int) := by rw [h0, Nat.cast_mul]
  have hx1 : (r1 + 4) * c = (((x1 + 4) / c * c : Nat) : Int) := by rw [h1, Int.sub_add_cancel, Nat.cast_mul]
  rw [aligned_eq_true_iff, ← div_mul_eq_iff_mod_eq_zero, ← div_mul_eq_iff_mod_eq_zero, hx0, hx1]
  omega

/-- A checked fill past the alignment check raises F_MEM at most. -/
theorem checkedFill_quiet_of_aligned {raw : RawRect} {fill : RawRect → State → Host.Outcome State Fault Refusal}
    {s t : State} (hfill : ∀ r, fill r s = .next t → (∃ a, t = s.raised (.mem a)) ∨
      t.faultLatch = s.faultLatch ∧ ∃ es, t.events = s.events ++ es ∧ ∀ f, Event.fault f ∉ es)
    (hal : aligned (bppConv s.fb.bpp) raw.x0 raw.x1 = true) (h : checkedFill raw fill s = .next t) :
    t.faultLatch.fillAlign = s.faultLatch.fillAlign ∧
      ∃ es, t.events = s.events ++ es ∧ ∀ a b k, Event.fault (.fillAlign a b k) ∉ es := by
  obtain ⟨hno, -⟩ | ⟨-, -, -, -, -, -, h⟩ := checkedFill_next h
  · rw [hal] at hno; cases hno
  · obtain ⟨a, rfl⟩ | ⟨hlatch, es, hes, hnone⟩ := hfill _ h
    · exact ⟨rfl, _, rfl, by simp⟩
    · exact ⟨by rw [hlatch], es, hes, fun a b k => hnone _⟩

theorem flatFill_quiet {r : RawRect} {s t : State} (h : flatFill r s = .next t) :
    (∃ a, t = s.raised (.mem a)) ∨
      t.faultLatch = s.faultLatch ∧ ∃ es, t.events = s.events ++ es ∧ ∀ f, Event.fault f ∉ es := by
  obtain ⟨a, -, rfl⟩ | ⟨-, rfl⟩ := flatFill_next h
  · exact .inl ⟨a, rfl⟩
  · exact .inr ⟨rfl, _, List.append_assoc .., by simp⟩

theorem pipelineFill_quiet {r : RawRect} {s t : State} (h : pipelineFill r s = .next t) :
    (∃ a, t = s.raised (.mem a)) ∨
      t.faultLatch = s.faultLatch ∧ ∃ es, t.events = s.events ++ es ∧ ∀ f, Event.fault f ∉ es := by
  obtain ⟨a, -, rfl⟩ | ⟨-, rfl⟩ := pipelineFill_next h
  · exact .inl ⟨a, rfl⟩
  · exact .inr ⟨rfl, _, List.append_assoc .., by simp⟩

/-- Settles O34: reconstruction is the raw check, which faults where it fails and past which no such fault arises. -/
theorem fillRectangleAlignmentFault : Obligations.FillRectangleAlignmentFault := by
  unfold Obligations.FillRectangleAlignmentFault
  rintro x1 y1 x0 y0 s c r0 r1 hmode rfl h0 h1
  have hal := aligned_iff_reconstructs h0 h1
  refine ⟨fun h => ?_, fun h t ht => ?_⟩
  · obtain ⟨fill, hexec⟩ := exec_fillRectangle_checked (x1 := x1) (y1 := y1) (x0 := x0) (y0 := y0) hmode
    rw [hexec]
    exact checkedFill_unaligned (Bool.eq_false_iff.mpr (mt hal.mp h))
  · have hal' : aligned (bppConv s.fb.bpp) (fillFields x1 y1 x0 y0).x0 (fillFields x1 y1 x0 y0).x1 = true := by
      rw [fillFields_eq]; exact hal.mpr h
    rcases hmode with hm | hm
    · rw [exec_fillRectangle_fill hm] at ht
      exact checkedFill_quiet_of_aligned (fun _ => flatFill_quiet) hal' ht
    · rw [exec_fillRectangle_one hm] at ht
      exact checkedFill_quiet_of_aligned (fun _ => pipelineFill_quiet) hal' ht

/-- Settles O37: the four refusals are the four tests after the alignment check, in order. -/
theorem fillRectangleRefusals : Obligations.FillRectangleRefusals := by
  unfold Obligations.FillRectangleRefusals
  rintro x1 y1 x0 y0 s c X hmode rfl hx0 hx1
  obtain ⟨fill, hexec⟩ := exec_fillRectangle_checked (x1 := x1) (y1 := y1) (x0 := x0) (y0 := y0) hmode
  have hal := aligned_eq_true_iff.mpr ⟨hx0, hx1⟩
  rw [hexec]
  refine ⟨fun h => checkedFill_inverted hal h, fun hx hy =>
    ⟨fun h => checkedFill_underflow hal hx hy (underflows_eq_true_iff.mpr h), fun hX => ?_⟩⟩
  have hr := rescale_eq (r := ⟨x0.toNat, y0.toNat, x1.toNat, y1.toNat⟩) hX
  have hun := (underflows_eq_false_iff (r := ⟨x0.toNat, y0.toNat, x1.toNat, y1.toNat⟩)).mpr
    (hX ▸ Nat.le_add_left 4 X)
  refine ⟨fun h => checkedFill_fractional hal hx hy hun ?_, fun wx0 wX wy0 wy1 h =>
    checkedFill_outside hal hx hy hun ?_ ?_⟩
  · refine hr ▸ Bool.eq_false_iff.mpr fun hw => ?_
    obtain ⟨wx0, wy0, wX, wy1⟩ := wholePixels_eq_true_iff.mp hw
    exact h.elim (· wx0) (Or.elim · (· wX) (Or.elim · (· wy0) (· wy1)))
  · exact hr ▸ wholePixels_eq_true_iff.mpr ⟨wx0, wy0, wX, wy1⟩
  · exact hr ▸ outsideWork_eq_true_iff.mpr h

/-! ### The requests -/

/-- The state after a flat fill, as the state before with system memory and two events changed (R236). -/
theorem flatFillDone_eq (s : State) (r : RawRect) :
    s.flatFillDone r =
      { s with
        sysMem := fillRect s.sysMem (fillView s) r s.fillColor
        events := s.events ++ [.mem (.write s.fb.dramAddr.toNat), .fillRect (fillView s) r s.fillColor] } := by
  simp only [State.flatFillDone, State.obtain, State.emit, List.append_assoc]
  rfl

/-- The state after a fill through the pipeline, likewise (R238). -/
theorem pipelineFillDone_eq (s : State) (r : RawRect) :
    s.pipelineFillDone r =
      { s with
        sysMem := (s.pipelineFillDone r).sysMem
        events := s.events ++ [.mem (.write s.fb.dramAddr.toNat),
          .fillRectWithPipeline (pipelineView s) r (pipelineColor s) s.pp] } := by
  simp only [State.pipelineFillDone, State.obtain, State.emit, List.append_assoc]
  rfl

theorem fillStart_fillView (s : State) (r : RawRect) :
    fillStart (fillView s) r =
      s.fb.dramAddr.toNat + r.y0 / 4 * (s.fb.width * bppBits s.fb.bpp / 8) + r.x0 / 4 * 4 := rfl

theorem fillCols_eq (r : RawRect) : fillCols r = (r.x1 - r.x0) / 4 + 1 := rfl

theorem fillRows_eq (r : RawRect) : fillRows r = (r.y1 - r.y0) / 4 + 1 := rfl

theorem footprintLen_pipelineView (s : State) :
    footprintLen (pipelineView s) = 239 * (s.fb.width * bppBits s.fb.bpp / 8) + 1280 := footprintLen_fbView ..

/-- Byte `b` of a pixel, most significant first (R81). -/
theorem getElem?_pixelBytesBE (c : BitVec 32) {b : Nat} (hb : b < 4) :
    (pixelBytesBE c)[b]? = some (c.extractLsb' (24 - 8 * b) 8) := by
  interval_cases b <;> rfl

/-- A packed colour is its four bytes. -/
theorem append_colorByte (c : BitVec 32) : colorByte c 24 ++ colorByte c 16 ++ colorByte c 8 ++ colorByte c 0 = c := by
  refine BitVec.eq_of_getLsbD_eq fun k hk => ?_
  have hbit (lo j : Nat) (hj : j < 8) (hk : lo + j = k) : (colorByte c lo).getLsbD j = c.getLsbD k := by
    rw [colorByte, BitVec.getLsbD_extractLsb', decide_eq_true hj, Bool.true_and, hk]
  rw [getLsbD_append_bytes]
  split
  · exact hbit 0 _ (by omega) (by omega)
  · split
    · exact hbit 8 _ (by omega) (by omega)
    · split
      · exact hbit 16 _ (by omega) (by omega)
      · exact hbit 24 _ (by omega) (by omega)

/-- Settles O35: past the tests the flat fill's rows are those of the statement, each of whole words. -/
theorem flatFillWritesWholeWords : Obligations.FlatFillWritesWholeWords := by
  unfold Obligations.FlatFillWritesWholeWords
  intro x1 y1 x0 y0 s c X P px py nx ny D hmode hc hx0 hx1 hx hy hX wx0 wX wy0 wy1 hright hbottom hP hpx hpy hnx hny hD
    hres
  set r : RawRect := ⟨x0.toNat / c, y0.toNat, X, y1.toNat⟩
  have hstart : fillStart (fillView s) r = D := by rw [fillStart_fillView, hD, hP, hpx, hpy]
  have hcols : fillCols r = nx := by rw [fillCols_eq, hnx]
  have hrows : fillRows r = ny := by rw [fillRows_eq, hny]
  have hpitch : (fillView s).pitch = P := hP.symm
  have hdone : exec (.fillRectangle x1 y1 x0 y0) s = .next (s.flatFillDone r) := by
    rw [exec_fillRectangle_fill hmode,
      checkedFill_of_operands _ hc hx0 hx1 hx hy hX wx0 wX wy0 wy1 hright hbottom]
    refine flatFill_done (lowestUnresolved_none.mpr ?_)
    rwa [hstart, hcols, hrows, hpitch]
  rw [flatFillDone_eq] at hdone
  refine ⟨_, hdone, ?_, fun j i b hj hi hb hlast => ?_, fun a ha => ?_⟩
  · rw [hP]; rfl
  · have := readByte_fillRect_inside s.sysMem (fillView s) r s.fillColor j (i * 4 + b)
      (s.fillColor.extractLsb' (24 - 8 * b) 8) (by rwa [hrows]) (by rw [hcols]; omega)
      (by rw [show (i * 4 + b) % 4 = b by omega]; exact getElem?_pixelBytesBE _ hb)
    rw [hstart, hpitch, hrows, ← Nat.add_assoc] at this
    exact this hlast
  · exact readByte_fillRect_outside _ _ _ _ a (by rwa [hstart, hcols, hrows, hpitch])

/-- Settles O36: past the tests the request carries the statement's view and colour, and only its footprint is
overwritten. -/
theorem pipelineFillIssuesOneRequest : Obligations.PipelineFillIssuesOneRequest := by
  unfold Obligations.PipelineFillIssuesOneRequest
  intro x1 y1 x0 y0 s c X P hmode hc hx0 hx1 hx hy hX wx0 wX wy0 wy1 hright hbottom hP hres
  have hlen : footprintLen (pipelineView s) = 239 * P + 1280 := by rw [footprintLen_pipelineView, hP]
  have hdone : exec (.fillRectangle x1 y1 x0 y0) s =
      .next (s.pipelineFillDone ⟨x0.toNat / c, y0.toNat, X, y1.toNat⟩) := by
    rw [exec_fillRectangle_one hmode,
      checkedFill_of_operands _ hc hx0 hx1 hx hy hX wx0 wX wy0 wy1 hright hbottom]
    exact pipelineFill_done (lowestUnresolved_footprint_none.mpr (by rwa [hlen]))
  rw [pipelineFillDone_eq] at hdone
  refine ⟨_, pipelineColor s, hdone, ?_, fun ho => ?_, fun ho => ?_,
    fun a ha => readByte_overwriteView_outside _ _ _ a (by rwa [hlen])⟩
  · rw [hP]; rfl
  · rw [pipelineColor, ho]; exact append_colorByte _
  · rw [pipelineColor, ho]; exact append_colorByte _

/-- Settles O39: the address of the fault is the lowest unresolved address of the pixels, or of the footprint. -/
theorem fillRectangleUnresolvedFaults : Obligations.FillRectangleUnresolvedFaults := by
  unfold Obligations.FillRectangleUnresolvedFaults
  intro x1 y1 x0 y0 s c X P nx ny D a hc hx0 hx1 hx hy hX wx0 wX wy0 wy1 hright hbottom hP hnx hny hD ha hmode
  rcases hmode with ⟨hmode, hmem, hleast⟩ | ⟨hmode, hlo, hhi, hleast⟩
  · rw [exec_fillRectangle_fill hmode,
      checkedFill_of_operands _ hc hx0 hx1 hx hy hX wx0 wX wy0 wy1 hright hbottom]
    refine flatFill_unresolved ?_
    have hpitch : (fillView s).pitch = P := hP.symm
    rw [fillUnresolved, fillStart_fillView, fillCols_eq, fillRows_eq, hpitch, ← hP, ← hD, ← hnx, ← hny]
    exact lowestUnresolved_eq_some hmem ha hleast
  · rw [exec_fillRectangle_one hmode,
      checkedFill_of_operands _ hc hx0 hx1 hx hy hX wx0 wX wy0 wy1 hright hbottom]
    refine pipelineFill_unresolved (lowestUnresolved_footprint_some hlo ?_ ha hleast)
    rwa [footprintLen_pipelineView, ← hP]

end Sys2Proof.Machine
end

section
/-! SUPPORT. The canonical form of a memory (spec/20_memory.md R71, log 8): O50, O51. -/

namespace Sys2Proof.Machine

/-- Settles O50: read after write, and the canonical form kept. -/
theorem memoryReadAfterWrite : Obligations.MemoryReadAfterWrite := by
  unfold Obligations.MemoryReadAfterWrite
  refine fun m a b => ⟨?_, fun k hk => ?_, wf_writeByte m a b⟩
  · rw [readByte_writeByte, if_pos rfl]
  · rw [readByte_writeByte, if_neg hk]

theorem canonicalFrom_cons {lo k : Nat} {v : Byte} {m : List Host.Cell} :
    canonicalFrom lo ((k, v) :: m) = true ↔ lo ≤ k ∧ v ≠ unlistedByte ∧ canonicalFrom (k + 1) m = true := by
  simp [canonicalFrom, and_assoc]

/-- Below its first listed address a canonical memory holds nothing. -/
theorem readByte_of_lt {lo a : Nat} {m : List Host.Cell} (hm : canonicalFrom lo m = true) (ha : a < lo) :
    readByte m a = unlistedByte := by
  induction m generalizing lo with
  | nil => rfl
  | cons c m ih =>
    obtain ⟨k, v⟩ := c
    obtain ⟨hk, -, htail⟩ := canonicalFrom_cons.mp hm
    rw [readByte, if_neg (by omega)]
    exact ih htail (by omega)

/-- The first listed byte of a memory is listed in every canonical memory that reads alike, at no higher address. -/
theorem head_le_of_readByte_eq {lo k k' : Nat} {v v' : Byte} {m n : List Host.Cell}
    (hm : canonicalFrom lo ((k, v) :: m) = true) (hn : canonicalFrom lo ((k', v') :: n) = true)
    (h : readByte ((k, v) :: m) k = readByte ((k', v') :: n) k) : k' ≤ k := by
  obtain ⟨-, hv, -⟩ := canonicalFrom_cons.mp hm
  obtain ⟨-, hv', htail⟩ := canonicalFrom_cons.mp hn
  refine Nat.le_of_not_lt fun hlt => hv ?_
  have hn' : canonicalFrom k' ((k', v') :: n) = true := canonicalFrom_cons.mpr ⟨Nat.le_refl k', hv', htail⟩
  rw [readByte_of_lt hn' hlt, readByte, if_pos rfl] at h
  exact h

theorem eq_of_readByte_eq {lo : Nat} {m n : List Host.Cell} (hm : canonicalFrom lo m = true)
    (hn : canonicalFrom lo n = true) (h : ∀ a, readByte m a = readByte n a) : m = n := by
  induction m generalizing lo n with
  | nil =>
    cases n with
    | nil => rfl
    | cons c n =>
      obtain ⟨k, v⟩ := c
      have hv : unlistedByte = v := by simpa [readByte] using h k
      obtain ⟨-, hne, -⟩ := canonicalFrom_cons.mp hn
      exact absurd hv.symm hne
  | cons c m ih =>
    obtain ⟨k, v⟩ := c
    cases n with
    | nil =>
      have hv : v = unlistedByte := by simpa [readByte] using h k
      obtain ⟨-, hne, -⟩ := canonicalFrom_cons.mp hm
      exact absurd hv hne
    | cons d n =>
      obtain ⟨k', v'⟩ := d
      obtain rfl : k = k' :=
        Nat.le_antisymm (head_le_of_readByte_eq hn hm (h k').symm) (head_le_of_readByte_eq hm hn (h k))
      obtain rfl : v = v' := by simpa [readByte] using h k
      obtain ⟨-, -, htm⟩ := canonicalFrom_cons.mp hm
      obtain ⟨-, -, htn⟩ := canonicalFrom_cons.mp hn
      rw [ih htm htn fun a => ?_]
      by_cases ha : k = a
      · rw [readByte_of_lt htm (by omega), readByte_of_lt htn (by omega)]
      · simpa [readByte, ha] using h a

/-- Settles O51: the first listed cells agree, and after them the rest. -/
theorem canonicalMemoriesAreDetermined : Obligations.CanonicalMemoriesAreDetermined := by
  unfold Obligations.CanonicalMemoriesAreDetermined
  exact fun m n hm hn h => eq_of_readByte_eq hm hn h

end Sys2Proof.Machine
end

section
/-! SUPPORT. One step on a full word set, and how an instruction is placed (spec/40_assembler_dispatch.md sections 2 and
3, log 17): O8, O12, O52. -/

namespace Sys2Proof.Machine

/-- Once no further word is awaited the decoded instruction runs (R146, R148). -/
theorem submit_decoded {w : Word} {s : State} {i : Instr} (hl : s.cmdlen < 16) (hw : (s.append w hl).waits = false)
    (hd : decodeWords (s.append w hl).word0 (s.append w hl).word1 = .ok i) :
    submit w s = complete (exec i (s.append w hl)) := by
  simp [submit, hl, hw, dispatch_ok hd]

theorem step_cons {s : State} {w : Word} {rest : List Word} (h : s.cmdIn = w :: rest) :
    step s = submit w { s with cmdIn := rest } := by
  unfold step
  rw [h]

/-- Settles O12. -/
theorem idleStepKeepsAllState : Obligations.IdleStepKeepsAllState := by
  unfold Obligations.IdleStepKeepsAllState
  intro s h
  unfold step
  rw [h]

/-- Settles O8: the stated `u` is the state after the append, whose decoded command runs and completes. -/
theorem stepRunsTheDecodedInstruction : Obligations.StepRunsTheDecodedInstruction := by
  unfold Obligations.StepRunsTheDecodedInstruction
  rintro s u w rest i hl hin rfl hwaits hd
  rw [step_cons hin, submit_decoded (s := { s with cmdIn := rest }) hl (decide_eq_false hwaits) hd]
  unfold complete
  rfl

/-- The words of a number of up to 128 bits. -/
theorem tableWords_eq {w : Nat} {w0 w1 : Word} (hw : w < 2 ^ 128) (h0 : w0.toNat = w % 2 ^ 64)
    (h1 : w1.toNat = w / 2 ^ 64) : tableWords 128 w = (w0, w1) := by
  rw [tableWords, Nat.mod_eq_of_lt hw]
  refine Prod.ext (BitVec.eq_of_toNat_eq ?_) (BitVec.eq_of_toNat_eq ?_)
  · rw [BitVec.toNat_ofNat, h0]
  · rw [← h1, BitVec.ofNat_toNat, BitVec.setWidth_eq]

/-- Settles O52: a two-word command runs on its second word, its first already buffered, a one-word command at a
boundary. -/
theorem placedInstructionRunsNext : Obligations.PlacedInstructionRunsNext := by
  unfold Obligations.PlacedInstructionRunsNext
  intro s w w0 w1 i hw h0 h1 hd
  rw [State.withFetchWord, tableWords_eq hw h0 h1, State.queueCommand]
  split
  case isTrue htwo =>
    have hop : opcodeOf w0 = 0x24#6 := by
      by_contra hne
      rw [words_eq_one hne] at htwo
      cases htwo
    set v : State := { s with cmdbuf := s.cmdbuf.set 0 w0, cmdlen := 1 }
    have hv0 : v.word0 = w0 := by simp [v, State.word0]
    obtain rfl : decodeTextureRectangle w0 w1 = i := Except.ok.inj ((decodeWords_textureRectangle w1 hop).symm.trans hd)
    have hl : v.cmdlen < 16 := show 1 < 16 by decide
    have hpending : v.cmdlen ≠ 0 := Nat.one_ne_zero
    refine ⟨v.append w1 hl, ?_, rfl, (append_word0_pending w1 hl hpending).trans hv0, fun _ => append_word1 w1 hl rfl⟩
    rw [step_cons rfl, ← complete_eq_mapNext]
    have := submit_second_textureRectangle (w := w1) (s := v) rfl (hv0.symm ▸ hop)
    rwa [hv0] at this
  case isFalse hone =>
    have hop : opcodeOf w0 ≠ 0x24#6 := fun h => hone (by rw [h]; rfl)
    set v : State := { s with cmdlen := 0 }
    have hl : v.cmdlen < 16 := show 0 < 16 by decide
    refine ⟨v.append w0 hl, ?_, rfl, append_word0 w0 hl rfl, fun h => absurd h hop⟩
    rw [step_cons rfl, ← complete_eq_mapNext]
    exact submit_one_ok rfl hop ((decodeWords_second 0 w1 hop).trans hd)

end Sys2Proof.Machine
end
